-- ==== Sys2Proof/Word.lean ====
section
/-!
DEFINITION. The word types of the machine (spec/00_scope.md R5, R6, R8).
-/

namespace Sys2Proof

/-- A register, a memory cell, a timer, an immediate `NN`: 8 bits, unsigned (R8, R10). -/
abbrev Byte := BitVec 8

/-- An address, the program counter, the index register, a stack entry, an immediate `NNN`: 12 bits (R6). -/
abbrev Addr := BitVec 12

/-- An instruction word: 16 bits (R50). -/
abbrev InsnWord := BitVec 16

/-- The key-state vector, bit `k` for hex key `k` (R19). -/
abbrev Keys := BitVec 16

/-- The number of a general register, 0..15 (R10, R51). -/
abbrev Reg := Fin 16

/-- The height `N` of a sprite, an unsigned count 0..15 (R53). -/
abbrev Height := Fin 16

end Sys2Proof
end

