-- ==== Sys2Proof/Syntax.lean ====
section
/-!
DEFINITION. The abstract instructions: one constructor per row of spec/opcode_table.json (spec/30_encoding.md R56).
-/

namespace Sys2Proof

/-- The instructions of R56, in the order of the opcode table. `x`, `y` are the register numbers of the fields `X`,
`Y`; `nn`, `nnn` the immediates; `n` the sprite height. -/
inductive Instr where
  /-- `0NNN` SYS NNN (R80) -/
  | sys (nnn : Addr)
  /-- `00E0` CLS (R116) -/
  | cls
  /-- `00EE` RET (R81) -/
  | ret
  /-- `1NNN` JP NNN (R82) -/
  | jp (nnn : Addr)
  /-- `2NNN` CALL NNN (R83) -/
  | call (nnn : Addr)
  /-- `3XNN` SE Vx, NN (R84) -/
  | seImm (x : Reg) (nn : Byte)
  /-- `4XNN` SNE Vx, NN (R85) -/
  | sneImm (x : Reg) (nn : Byte)
  /-- `5XY0` SE Vx, Vy (R86) -/
  | seReg (x y : Reg)
  /-- `6XNN` LD Vx, NN (R96) -/
  | ldImm (x : Reg) (nn : Byte)
  /-- `7XNN` ADD Vx, NN (R97) -/
  | addImm (x : Reg) (nn : Byte)
  /-- `8XY0` LD Vx, Vy (R98) -/
  | ldReg (x y : Reg)
  /-- `8XY1` OR Vx, Vy (R99) -/
  | orReg (x y : Reg)
  /-- `8XY2` AND Vx, Vy (R100) -/
  | andReg (x y : Reg)
  /-- `8XY3` XOR Vx, Vy (R101) -/
  | xorReg (x y : Reg)
  /-- `8XY4` ADD Vx, Vy (R102) -/
  | addReg (x y : Reg)
  /-- `8XY5` SUB Vx, Vy (R103) -/
  | sub (x y : Reg)
  /-- `8XY6` SHR Vx (R104); `y` is in the word and ignored under the default parameters -/
  | shr (x y : Reg)
  /-- `8XY7` SUBN Vx, Vy (R105) -/
  | subn (x y : Reg)
  /-- `8XYE` SHL Vx (R106); `y` is in the word and ignored under the default parameters -/
  | shl (x y : Reg)
  /-- `9XY0` SNE Vx, Vy (R87) -/
  | sneReg (x y : Reg)
  /-- `ANNN` LD I, NNN (R140) -/
  | ldI (nnn : Addr)
  /-- `BNNN` JP V0, NNN (R88) -/
  | jpV0 (nnn : Addr)
  /-- `CXNN` RND Vx, NN (R107) -/
  | rnd (x : Reg) (nn : Byte)
  /-- `DXYN` DRW Vx, Vy, N (R117) -/
  | drw (x y : Reg) (n : Height)
  /-- `EX9E` SKP Vx (R125) -/
  | skp (x : Reg)
  /-- `EXA1` SKNP Vx (R126) -/
  | sknp (x : Reg)
  /-- `FX07` LD Vx, DT (R127) -/
  | ldVxDt (x : Reg)
  /-- `FX0A` LD Vx, K (R128) -/
  | ldVxK (x : Reg)
  /-- `FX15` LD DT, Vx (R129) -/
  | ldDtVx (x : Reg)
  /-- `FX18` LD ST, Vx (R130) -/
  | ldStVx (x : Reg)
  /-- `FX1E` ADD I, Vx (R141) -/
  | addI (x : Reg)
  /-- `FX29` LD F, Vx (R142) -/
  | ldF (x : Reg)
  /-- `FX33` LD B, Vx (R143) -/
  | ldB (x : Reg)
  /-- `FX55` LD [I], Vx (R144) -/
  | storeRegs (x : Reg)
  /-- `FX65` LD Vx, [I] (R145) -/
  | loadRegs (x : Reg)
  deriving DecidableEq, Repr

end Sys2Proof
end

