-- ==== Sys2Proof/WellFormed.lean ====
section
/-!
DEFINITION. Which terms of Instr are instructions of the hardware. The operand types hold every field value the
encoding admits (spec/30_encoding.md R53); the one check left is that SYS applies only when neither CLS nor RET
matches the word (R56).
-/

namespace Sys2Proof

/-- The `SYS` row applies only when the word is neither `00E0` nor `00EE` (R55, R56). -/
def sysTarget (nnn : Addr) : Bool := nnn != 0x0E0 && nnn != 0x0EE

/-- The well-formed instructions. -/
def Instr.wf : Instr → Bool
  | .sys nnn => sysTarget nnn
  | .cls => true
  | .ret => true
  | .jp _ => true
  | .call _ => true
  | .seImm _ _ => true
  | .sneImm _ _ => true
  | .seReg _ _ => true
  | .ldImm _ _ => true
  | .addImm _ _ => true
  | .ldReg _ _ => true
  | .orReg _ _ => true
  | .andReg _ _ => true
  | .xorReg _ _ => true
  | .addReg _ _ => true
  | .sub _ _ => true
  | .shr _ _ => true
  | .subn _ _ => true
  | .shl _ _ => true
  | .sneReg _ _ => true
  | .ldI _ => true
  | .jpV0 _ => true
  | .rnd _ _ => true
  | .drw _ _ _ => true
  | .skp _ => true
  | .sknp _ => true
  | .ldVxDt _ => true
  | .ldVxK _ => true
  | .ldDtVx _ => true
  | .ldStVx _ => true
  | .addI _ => true
  | .ldF _ => true
  | .ldB _ => true
  | .storeRegs _ => true
  | .loadRegs _ => true

end Sys2Proof
end

