-- ==== Sys2Proof/Decode.lean ====
section
/-!
DEFINITION. The decoder (total on every word, rejecting by name), the encoder, and the opcode map as the table of
masks and matches (spec/30_encoding.md R50 to R60).
-/

namespace Sys2Proof

/-- Why a word matches no row of the opcode map (R57, R58): the family whose secondary field names no instruction. -/
inductive Unmapped where
  /-- `5XYN` with `N` in 1..F -/
  | family5LowNibble
  /-- `8XYN` with `N` in 8, 9, A, B, C, D, F -/
  | family8LowNibble
  /-- `9XYN` with `N` in 1..F -/
  | family9LowNibble
  /-- `EXNN` with `NN` other than 9E, A1 -/
  | familyELowByte
  /-- `FXNN` with `NN` other than 07, 0A, 15, 18, 1E, 29, 33, 55, 65 -/
  | familyFLowByte
  deriving DecidableEq, Repr

/-! ## The fields of a word (R51) -/

/-- `w[15:12]`, the primary opcode. -/
def family (w : InsnWord) : BitVec 4 := w.extractLsb' 12 4

/-- `w[11:8]` as a register number. -/
def fieldX (w : InsnWord) : Reg := Fin.ofNat 16 (w.extractLsb' 8 4).toNat

/-- `w[7:4]` as a register number. -/
def fieldY (w : InsnWord) : Reg := Fin.ofNat 16 (w.extractLsb' 4 4).toNat

/-- `w[3:0]`, the low nibble. -/
def fieldN (w : InsnWord) : BitVec 4 := w.extractLsb' 0 4

/-- `w[3:0]` as a sprite height. -/
def fieldHeight (w : InsnWord) : Height := Fin.ofNat 16 (fieldN w).toNat

/-- `w[7:0]`, the low byte. -/
def fieldNN (w : InsnWord) : Byte := w.extractLsb' 0 8

/-- `w[11:0]`, the address. -/
def fieldNNN (w : InsnWord) : Addr := w.extractLsb' 0 12

/-! ## Decoding: primary dispatch on the family (R54), secondary dispatch inside it (R55) -/

/-- Family 0: the whole word must be `00E0` or `00EE`; every other word is SYS (R55). -/
def decodeFamily0 (w : InsnWord) : Instr :=
  if w = 0x00E0 then .cls else if w = 0x00EE then .ret else .sys (fieldNNN w)

/-- Family 5: the low nibble must be 0 (R55). -/
def decodeFamily5 (w : InsnWord) : Except Unmapped Instr :=
  if fieldN w = 0 then .ok (.seReg (fieldX w) (fieldY w)) else .error .family5LowNibble

/-- Family 8: the low nibble selects (R55). -/
def decodeFamily8 (w : InsnWord) : Except Unmapped Instr :=
  match fieldN w with
  | 0x0#4 => .ok (.ldReg (fieldX w) (fieldY w))
  | 0x1#4 => .ok (.orReg (fieldX w) (fieldY w))
  | 0x2#4 => .ok (.andReg (fieldX w) (fieldY w))
  | 0x3#4 => .ok (.xorReg (fieldX w) (fieldY w))
  | 0x4#4 => .ok (.addReg (fieldX w) (fieldY w))
  | 0x5#4 => .ok (.sub (fieldX w) (fieldY w))
  | 0x6#4 => .ok (.shr (fieldX w) (fieldY w))
  | 0x7#4 => .ok (.subn (fieldX w) (fieldY w))
  | 0xE#4 => .ok (.shl (fieldX w) (fieldY w))
  | _ => .error .family8LowNibble

/-- Family 9: the low nibble must be 0 (R55). -/
def decodeFamily9 (w : InsnWord) : Except Unmapped Instr :=
  if fieldN w = 0 then .ok (.sneReg (fieldX w) (fieldY w)) else .error .family9LowNibble

/-- Family E: the low byte selects (R55). -/
def decodeFamilyE (w : InsnWord) : Except Unmapped Instr :=
  match fieldNN w with
  | 0x9E#8 => .ok (.skp (fieldX w))
  | 0xA1#8 => .ok (.sknp (fieldX w))
  | _ => .error .familyELowByte

/-- Family F: the low byte selects (R55). -/
def decodeFamilyF (w : InsnWord) : Except Unmapped Instr :=
  match fieldNN w with
  | 0x07#8 => .ok (.ldVxDt (fieldX w))
  | 0x0A#8 => .ok (.ldVxK (fieldX w))
  | 0x15#8 => .ok (.ldDtVx (fieldX w))
  | 0x18#8 => .ok (.ldStVx (fieldX w))
  | 0x1E#8 => .ok (.addI (fieldX w))
  | 0x29#8 => .ok (.ldF (fieldX w))
  | 0x33#8 => .ok (.ldB (fieldX w))
  | 0x55#8 => .ok (.storeRegs (fieldX w))
  | 0x65#8 => .ok (.loadRegs (fieldX w))
  | _ => .error .familyFLowByte

/-- The decoder: the instruction of a word, or the name of the reason why no row matches it (R54, R55, R60). It looks
at the word alone. -/
def decode (w : InsnWord) : Except Unmapped Instr :=
  match family w with
  | 0x0#4 => .ok (decodeFamily0 w)
  | 0x1#4 => .ok (.jp (fieldNNN w))
  | 0x2#4 => .ok (.call (fieldNNN w))
  | 0x3#4 => .ok (.seImm (fieldX w) (fieldNN w))
  | 0x4#4 => .ok (.sneImm (fieldX w) (fieldNN w))
  | 0x5#4 => decodeFamily5 w
  | 0x6#4 => .ok (.ldImm (fieldX w) (fieldNN w))
  | 0x7#4 => .ok (.addImm (fieldX w) (fieldNN w))
  | 0x8#4 => decodeFamily8 w
  | 0x9#4 => decodeFamily9 w
  | 0xA#4 => .ok (.ldI (fieldNNN w))
  | 0xB#4 => .ok (.jpV0 (fieldNNN w))
  | 0xC#4 => .ok (.rnd (fieldX w) (fieldNN w))
  | 0xD#4 => .ok (.drw (fieldX w) (fieldY w) (fieldHeight w))
  | 0xE#4 => decodeFamilyE w
  | _ => decodeFamilyF w  -- 0xF, the one family left

/-- The word of two bytes of memory, the byte at the lower address first: big-endian (R31, R50). -/
def wordOfBytes (hi lo : Byte) : InsnWord := hi ++ lo

/-- The byte at the lower address of a word: bits 15:8 (R31). -/
def wordHigh (w : InsnWord) : Byte := w.extractLsb' 8 8

/-- The byte at the higher address of a word: bits 7:0 (R31). -/
def wordLow (w : InsnWord) : Byte := w.extractLsb' 0 8

/-- The decoder on the two bytes as they lie in memory. -/
def decodeBytes (hi lo : Byte) : Except Unmapped Instr := decode (wordOfBytes hi lo)

/-- The word of an instruction whose first `nbits` bits are `w` (bit 0 the least significant bit of its one word), as
the opcode table numbers them; every bit above `nbits` is 0. -/
def tableWord (nbits w : Nat) : InsnWord := BitVec.ofNat 16 (w % 2 ^ nbits)

/-- The instruction this decoder reads from an opcode-table word, laid out in memory as the hardware stores it. -/
def decodeTableWord (nbits w : Nat) : Option Instr :=
  (decodeBytes (wordHigh (tableWord nbits w)) (wordLow (tableWord nbits w))).toOption

/-! ## Encoding: the six formats (R52) -/

/-- The four bits of a register number, or of a sprite height. -/
def regBits (r : Reg) : BitVec 4 := BitVec.ofNat 4 r.val

/-- Format A: family and `NNN`. -/
def formatA (fam : BitVec 4) (nnn : Addr) : InsnWord := fam ++ nnn

/-- Format I: family, `X` and `NN`. -/
def formatI (fam : BitVec 4) (x : Reg) (nn : Byte) : InsnWord := fam ++ regBits x ++ nn

/-- Formats R and D: family, `X`, `Y` and a low nibble, fixed in R and the height in D. -/
def formatR (fam : BitVec 4) (x y : Reg) (low : BitVec 4) : InsnWord := fam ++ regBits x ++ regBits y ++ low

/-- Format S: family, `X` and a fixed low byte. -/
def formatS (fam : BitVec 4) (x : Reg) (low : Byte) : InsnWord := fam ++ regBits x ++ low

/-- The word of an instruction (R52, R56). -/
def encode : Instr → InsnWord
  | .sys nnn => formatA 0x0 nnn
  | .cls => 0x00E0
  | .ret => 0x00EE
  | .jp nnn => formatA 0x1 nnn
  | .call nnn => formatA 0x2 nnn
  | .seImm x nn => formatI 0x3 x nn
  | .sneImm x nn => formatI 0x4 x nn
  | .seReg x y => formatR 0x5 x y 0x0
  | .ldImm x nn => formatI 0x6 x nn
  | .addImm x nn => formatI 0x7 x nn
  | .ldReg x y => formatR 0x8 x y 0x0
  | .orReg x y => formatR 0x8 x y 0x1
  | .andReg x y => formatR 0x8 x y 0x2
  | .xorReg x y => formatR 0x8 x y 0x3
  | .addReg x y => formatR 0x8 x y 0x4
  | .sub x y => formatR 0x8 x y 0x5
  | .shr x y => formatR 0x8 x y 0x6
  | .subn x y => formatR 0x8 x y 0x7
  | .shl x y => formatR 0x8 x y 0xE
  | .sneReg x y => formatR 0x9 x y 0x0
  | .ldI nnn => formatA 0xA nnn
  | .jpV0 nnn => formatA 0xB nnn
  | .rnd x nn => formatI 0xC x nn
  | .drw x y n => formatR 0xD x y (regBits n)
  | .skp x => formatS 0xE x 0x9E
  | .sknp x => formatS 0xE x 0xA1
  | .ldVxDt x => formatS 0xF x 0x07
  | .ldVxK x => formatS 0xF x 0x0A
  | .ldDtVx x => formatS 0xF x 0x15
  | .ldStVx x => formatS 0xF x 0x18
  | .addI x => formatS 0xF x 0x1E
  | .ldF x => formatS 0xF x 0x29
  | .ldB x => formatS 0xF x 0x33
  | .storeRegs x => formatS 0xF x 0x55
  | .loadRegs x => formatS 0xF x 0x65

/-! ## The opcode map as masks and matches (R56) -/

/-- One row of the opcode map: a word `w` matches it when `w AND mask = match`. -/
structure OpcodeRow where
  mask : InsnWord
  bits : InsnWord
  deriving DecidableEq, Repr

/-- A word matches a row (R56). -/
def rowMatches (r : OpcodeRow) (w : InsnWord) : Bool := w &&& r.mask == r.bits

/-- The row of the opcode map that an instruction comes from (R56). -/
def opcodeRow : Instr → OpcodeRow
  | .sys _ => ⟨0xF000, 0x0000⟩
  | .cls => ⟨0xFFFF, 0x00E0⟩
  | .ret => ⟨0xFFFF, 0x00EE⟩
  | .jp _ => ⟨0xF000, 0x1000⟩
  | .call _ => ⟨0xF000, 0x2000⟩
  | .seImm _ _ => ⟨0xF000, 0x3000⟩
  | .sneImm _ _ => ⟨0xF000, 0x4000⟩
  | .seReg _ _ => ⟨0xF00F, 0x5000⟩
  | .ldImm _ _ => ⟨0xF000, 0x6000⟩
  | .addImm _ _ => ⟨0xF000, 0x7000⟩
  | .ldReg _ _ => ⟨0xF00F, 0x8000⟩
  | .orReg _ _ => ⟨0xF00F, 0x8001⟩
  | .andReg _ _ => ⟨0xF00F, 0x8002⟩
  | .xorReg _ _ => ⟨0xF00F, 0x8003⟩
  | .addReg _ _ => ⟨0xF00F, 0x8004⟩
  | .sub _ _ => ⟨0xF00F, 0x8005⟩
  | .shr _ _ => ⟨0xF00F, 0x8006⟩
  | .subn _ _ => ⟨0xF00F, 0x8007⟩
  | .shl _ _ => ⟨0xF00F, 0x800E⟩
  | .sneReg _ _ => ⟨0xF00F, 0x9000⟩
  | .ldI _ => ⟨0xF000, 0xA000⟩
  | .jpV0 _ => ⟨0xF000, 0xB000⟩
  | .rnd _ _ => ⟨0xF000, 0xC000⟩
  | .drw _ _ _ => ⟨0xF000, 0xD000⟩
  | .skp _ => ⟨0xF0FF, 0xE09E⟩
  | .sknp _ => ⟨0xF0FF, 0xE0A1⟩
  | .ldVxDt _ => ⟨0xF0FF, 0xF007⟩
  | .ldVxK _ => ⟨0xF0FF, 0xF00A⟩
  | .ldDtVx _ => ⟨0xF0FF, 0xF015⟩
  | .ldStVx _ => ⟨0xF0FF, 0xF018⟩
  | .addI _ => ⟨0xF0FF, 0xF01E⟩
  | .ldF _ => ⟨0xF0FF, 0xF029⟩
  | .ldB _ => ⟨0xF0FF, 0xF033⟩
  | .storeRegs _ => ⟨0xF0FF, 0xF055⟩
  | .loadRegs _ => ⟨0xF0FF, 0xF065⟩

/-- The 34 rows of the opcode map that never overlap (R56). -/
def properRows : List OpcodeRow :=
  [⟨0xFFFF, 0x00E0⟩, ⟨0xFFFF, 0x00EE⟩, ⟨0xF000, 0x1000⟩, ⟨0xF000, 0x2000⟩, ⟨0xF000, 0x3000⟩, ⟨0xF000, 0x4000⟩,
    ⟨0xF00F, 0x5000⟩, ⟨0xF000, 0x6000⟩, ⟨0xF000, 0x7000⟩, ⟨0xF00F, 0x8000⟩, ⟨0xF00F, 0x8001⟩, ⟨0xF00F, 0x8002⟩] ++
  [⟨0xF00F, 0x8003⟩, ⟨0xF00F, 0x8004⟩, ⟨0xF00F, 0x8005⟩, ⟨0xF00F, 0x8006⟩, ⟨0xF00F, 0x8007⟩, ⟨0xF00F, 0x800E⟩,
    ⟨0xF00F, 0x9000⟩, ⟨0xF000, 0xA000⟩, ⟨0xF000, 0xB000⟩, ⟨0xF000, 0xC000⟩, ⟨0xF000, 0xD000⟩, ⟨0xF0FF, 0xE09E⟩] ++
  [⟨0xF0FF, 0xE0A1⟩, ⟨0xF0FF, 0xF007⟩, ⟨0xF0FF, 0xF00A⟩, ⟨0xF0FF, 0xF015⟩, ⟨0xF0FF, 0xF018⟩, ⟨0xF0FF, 0xF01E⟩,
    ⟨0xF0FF, 0xF029⟩, ⟨0xF0FF, 0xF033⟩, ⟨0xF0FF, 0xF055⟩, ⟨0xF0FF, 0xF065⟩]

/-- The `SYS` row, of the lowest priority (R56). -/
def sysRow : OpcodeRow := ⟨0xF000, 0x0000⟩

end Sys2Proof
end

