-- ==== Sys2Proof/Config.lean ====
section
/-!
DEFINITION. What an implementation fixes: the sizes of spec/00_scope.md R5, the types of the parameters of R7, and
the free values (no body: nothing in Lean can evaluate one). The defaults of the parameters stand
in Sys2Proof/Machine/Params.lean, those of a given machine in its state.
-/

namespace Sys2Proof.Config

/-- `MEM_SIZE` (R5). -/
abbrev memSize : Nat := 4096
/-- `NREGS` (R5). -/
abbrev nRegs : Nat := 16
/-- `STACK_DEPTH` (R5). -/
abbrev stackDepth : Nat := 16
/-- `DISP_W` (R5). -/
abbrev dispW : Nat := 64
/-- `DISP_H` (R5). -/
abbrev dispH : Nat := 32
/-- `NKEYS` (R5). -/
abbrev nKeys : Nat := 16
/-- `FONT_LEN` (R5): the font block is 0x000..0x04F. -/
abbrev fontLen : Nat := 80
/-- `GLYPH_BYTES` (R5). -/
abbrev glyphBytes : Nat := 5
/-- `FONT_BASE` (R5). -/
abbrev fontBase : Addr := 0x000
/-- `ROM_BASE` (R5): the first ROM byte and the reset value of `pc`. -/
abbrev romBase : Addr := 0x200
/-- `ROM_MAX` (R5): the largest ROM image in bytes. -/
abbrev romMax : Nat := 3584
/-- `INSN_BYTES` (R5). -/
abbrev insnBytes : Addr := 2

/-- `FONT_WRITE_POLICY` (R7, R36, decision D21): what a store into the font block does. -/
inductive FontWritePolicy where
  | fault
  | ignore
  | write
  deriving DecidableEq, Repr

/-- `SHIFT_SOURCE` (R7, decision D8): the register that `8XY6` and `8XYE` shift. -/
inductive ShiftSource where
  | vx
  | vy
  deriving DecidableEq, Repr

/-- `KEY_PICK` (R7, decision D17): which of several pressed keys `FX0A` takes. -/
inductive KeyPick where
  | lowest
  | highest
  | any
  deriving DecidableEq, Repr

/-- `JUMP_OFFSET_REG` (R7, decision D13): the register that `BNNN` adds. -/
inductive JumpOffsetReg where
  | v0
  | vx
  deriving DecidableEq, Repr

/-- `FONT` (R7, R17, decision D25): any 80 bytes. -/
abbrev Font := Vector Byte fontLen

/-- The parameters of R7, but for the two inputs `rnd` and `keys`, which are ports in State. -/
structure Params where
  font                   : Font
  fontWritePolicy        : FontWritePolicy
  shiftSource            : ShiftSource
  keyPick                : KeyPick
  loadStoreIncrementsI   : Bool
  jumpOffsetReg          : JumpOffsetReg
  deriving DecidableEq, Repr

/-- FREE VALUE (R22, R107, decision D18): the byte the random source presents as its `n`-th draw. Log entry 3. -/
opaque rndDraw : Nat → Byte

/-- FREE VALUE (R7 `KEY_PICK`, decision D17): the key that the nondeterministic choice `KeyPick.any` names when the
`n`-th draw is current and the keys are `k`. The default of KEY_PICK does not use it. Log entry 20. -/
opaque keyChoice : Nat → Keys → Fin 16

end Sys2Proof.Config
end

