-- ==== Sys2Proof/Machine/Params.lean ====
section
/-!
DEFINITION. The defaults of spec/00_scope.md R7, which the machine after reset has. Every meaning reads the parameters
of the machine it runs on from State.params; nothing else looks at the values here.
-/

namespace Sys2Proof.Machine

/-- The default of `FONT` (R7): the 80 bytes of the table in R17, five bytes a glyph, digits 0 to F (log entry 9). -/
def fontTable : List Byte :=
  [0xF0, 0x90, 0x90, 0x90, 0xF0,  0x20, 0x60, 0x20, 0x20, 0x70,  0xF0, 0x10, 0xF0, 0x80, 0xF0] ++
  [0xF0, 0x10, 0xF0, 0x10, 0xF0,  0x90, 0x90, 0xF0, 0x10, 0x10,  0xF0, 0x80, 0xF0, 0x10, 0xF0] ++
  [0xF0, 0x80, 0xF0, 0x90, 0xF0,  0xF0, 0x10, 0x20, 0x40, 0x40,  0xF0, 0x90, 0xF0, 0x90, 0xF0] ++
  [0xF0, 0x90, 0xF0, 0x10, 0xF0,  0xF0, 0x90, 0xF0, 0x90, 0x90,  0xE0, 0x90, 0xE0, 0x90, 0xE0] ++
  [0xF0, 0x80, 0x80, 0x80, 0xF0,  0xE0, 0x90, 0x90, 0x90, 0xE0,  0xF0, 0x80, 0xF0, 0x80, 0xF0] ++
  [0xF0, 0x80, 0xF0, 0x80, 0x80]

/-- The defaults of R7 (log entry 10). -/
def defaultParams : Config.Params where
  font := ⟨fontTable.toArray, rfl⟩
  fontWritePolicy := .fault
  shiftSource := .vx
  keyPick := .lowest
  loadStoreIncrementsI := false
  jumpOffsetReg := .v0

end Sys2Proof.Machine
end

