-- ==== Sys2Proof/Machine/State.lean ====
section
/-!
DEFINITION. The state of the machine as plain data, the reasons a step or a host action can stop, and the state after
reset (spec/10_state.md R10 to R26, spec/60_exceptions.md R155, R156).
-/

namespace Sys2Proof.Machine

/-- The fault kinds of R155. They are latched in State.fault by the cycle that raises them. -/
inductive FaultKind where
  /-- `2NNN` with `sp` = 16 (R157) -/
  | stackOverflow
  /-- `00EE` with `sp` = 0 (R158) -/
  | stackUnderflow
  /-- `FX33`, `FX55` with a store address in the font block (R159) -/
  | fontWrite
  deriving DecidableEq, Repr

/-- What the fault latch holds (R21, R156): the kind, the address of the faulting instruction, its word. -/
structure FaultRecord where
  kind : FaultKind
  addr : Addr
  word : InsnWord
  deriving DecidableEq, Repr

/-- How far the host's boot order has come (R184). THE MODEL'S OWN: the spec states the protocol, not a register for
it. Log entry 5. -/
inductive Boot where
  /-- after reset: no ROM deposited, no cycle requested -/
  | fresh
  /-- a ROM deposited, no cycle requested -/
  | loaded
  /-- at least one cycle has run since reset -/
  | running
  deriving DecidableEq, Repr

/-- Memory as the list of the cells that differ from their reset content, addresses strictly rising (log entry 8). -/
abbrev Memory := List Host.Cell

/-- The framebuffer: 32 rows of 64 cells, `disp[y][x]` (R18). -/
abbrev Display := Vector (Vector Bool Config.dispW) Config.dispH

/-- The architectural state, the ports of R23 that a step reads or leaves behind, the model's own two fields, and the
machine's parameters. -/
structure State where
  /-- `V[0]`..`V[15]`; `V[15]` is the flag VF (R10, R11) -/
  v : Vector Byte Config.nRegs
  /-- the program counter (R12) -/
  pc : Addr
  /-- the index register `I` (R13) -/
  idx : Addr
  /-- the call stack (R14) -/
  stack : Vector Addr Config.stackDepth
  /-- the number of stack entries in use, 0..16 (R14) -/
  sp : Fin 17
  /-- the delay timer `DT` (R15) -/
  dt : Byte
  /-- the sound timer `ST` (R16) -/
  st : Byte
  /-- the memory (R17, R30) -/
  mem : Memory
  /-- the framebuffer (R18) -/
  disp : Display
  /-- the key-state input port, as the host last wrote it (R19) -/
  keys : Keys
  /-- the fault latch (R21) -/
  fault : Option FaultRecord
  /-- the beep output of the cycle just completed (R20, R23) -/
  beep : Bool
  /-- the random input port, as presented for the next cycle (R22, R23) -/
  rnd : Byte
  /-- THE MODEL'S OWN: how many random bytes have been drawn; the argument of Config.rndDraw (log entry 3) -/
  draws : Nat
  /-- THE MODEL'S OWN: how far the host's boot order has come (log entry 5) -/
  boot : Boot
  /-- the parameters of this machine (R7): fixed for it, read by its instructions, written by nothing; they stand here
  because exec takes no other argument (log entry 26) -/
  params : Config.Params
  deriving DecidableEq, Repr

/-- The reasons a step stops with a fault. The cycle that raises one of the three faults of R155 does not stop: it ends in
a next state with State.fault set. What stops is the step after it. -/
inductive Fault where
  /-- Raised by a step from a state with a latched fault, no instruction being fetched (R72, R156: "no claim should be
  provable about what follows a fault"). Safe: nothing can be proved of a state after it. Log entry 1. -/
  | stuck (record : FaultRecord)
  deriving DecidableEq, Repr

/-- The reasons for a refusal. -/
inductive Refusal where
  /-- Raised by an arm of exec that has no meaning yet. No arm is such an arm. Safe: nothing is claimed. -/
  | notModelled (mnemonic : String)
  /-- Raised by the host action `rom_load` after the first cycle or a second time (R182, R187, decision D23: allowed
  "only after `reset` and before the first cycle, once per reset"). No step raises it. Safe: the spec gives no effect. -/
  | romLoadNotAllowed
  deriving DecidableEq, Repr

/-- The state after reset (R24, R180) of a machine with the given parameters. `mem` lists nothing: every cell has its
reset content. `rnd` is the first draw of the random source, a free value; `draws` and `boot` are the model's own (log
entries 3 and 5). -/
def State.resetWith (params : Config.Params) : State where
  v := Vector.replicate Config.nRegs 0
  pc := Config.romBase
  idx := 0
  stack := Vector.replicate Config.stackDepth 0
  sp := 0
  dt := 0
  st := 0
  mem := []
  disp := Vector.replicate Config.dispH (Vector.replicate Config.dispW false)
  keys := 0
  fault := none
  beep := false
  rnd := Config.rndDraw 0
  draws := 0
  boot := .fresh
  params := params

/-- The state after reset of the machine with the spec's defaults (R7, R24). -/
def State.reset : State := State.resetWith defaultParams

end Sys2Proof.Machine
end

