-- ==== Sys2Proof/Machine/Ops.lean ====
section
/-!
DEFINITION. The named operations over registers, memory, stack and display, and taking a fault (spec/10_state.md,
spec/20_memory.md, spec/43_display.md R115, R117, spec/60_exceptions.md R156).
-/

namespace Sys2Proof.Machine

/-! ## Registers -/

/-- `V[r]` (R8, R10). -/
def State.getReg (s : State) (r : Reg) : Byte := s.v[r]

/-- `V[r] <- b` (R8, R10). -/
def State.setReg (r : Reg) (b : Byte) (s : State) : State := { s with v := s.v.set r b }

/-- `pc <- a` (R8, R12). -/
def State.setPc (a : Addr) (s : State) : State := { s with pc := a }

/-- `I <- a` (R13). -/
def State.setIdx (a : Addr) (s : State) : State := { s with idx := a }

/-- `DT <- b` (R15). -/
def State.setDt (b : Byte) (s : State) : State := { s with dt := b }

/-- `ST <- b` (R16). -/
def State.setSt (b : Byte) (s : State) : State := { s with st := b }

/-- The beep output of the cycle (R20). -/
def State.setBeep (c : Bool) (s : State) : State := { s with beep := c }

/-- The framebuffer as a whole (R18). -/
def State.setDisp (d : Display) (s : State) : State := { s with disp := d }

/-- One more advance on top of the automatic one (R9 "Skip", R89). -/
def State.skipIf (c : Bool) (s : State) : State := if c then s.setPc (s.pc + Config.insnBytes) else s

/-! ## Memory -/

/-- What a cell that is not listed holds: the reset content, the font below 0x050 and 0x00 from there on (R17, R24). -/
def resetByte (font : Config.Font) (a : Nat) : Byte := font.toList.getD a 0

/-- The byte at an address. -/
def Memory.read (font : Config.Font) : Memory → Nat → Byte
  | [], a => resetByte font a
  | (k, b) :: m, a => if k = a then b else Memory.read font m a

/-- The memory with an address no longer listed. -/
def Memory.erase (m : Memory) (a : Nat) : Memory := m.filter fun c => c.1 != a

/-- The memory with a cell listed, before the first listed cell of a higher address. -/
def Memory.insert : Memory → Nat → Byte → Memory
  | [], a, b => [(a, b)]
  | (k, c) :: m, a, b => if a < k then (a, b) :: (k, c) :: m else (k, c) :: Memory.insert m a b

/-- The memory with the byte at an address replaced; it keeps the canonical form. -/
def Memory.write (font : Config.Font) (m : Memory) (a : Nat) (b : Byte) : Memory :=
  if b = resetByte font a then Memory.erase m a else Memory.insert (Memory.erase m a) a b

/-- The canonical form from an address on: strictly rising, inside the address space, no cell at its reset content. -/
def Memory.wfFrom (font : Config.Font) : Nat → Memory → Bool
  | _, [] => true
  | lo, (a, b) :: m =>
    decide (lo ≤ a) && decide (a < Config.memSize) && (b != resetByte font a) && Memory.wfFrom font (a + 1) m

/-- The canonical form of the memory of a machine with the given font. -/
def Memory.wf (font : Config.Font) (m : Memory) : Bool := Memory.wfFrom font 0 m

/-- `MemRead(a, 1)`; a 12-bit address is already taken modulo 4096 (R8, R33). -/
def State.readByte (s : State) (a : Addr) : Byte := Memory.read s.params.font s.mem a.toNat

/-- A store of one byte with no check of the font block: what `MemWrite` does outside the font block (R8), and what the
host's load does (R182). -/
def State.putByte (a : Addr) (b : Byte) (s : State) : State :=
  { s with mem := Memory.write s.params.font s.mem a.toNat b }

/-- Bytes at rising addresses from `a` on, each taken modulo 4096 (R33, R35). -/
def State.putBytes : Addr → List Byte → State → State
  | _, [], s => s
  | a, b :: bs, s => State.putBytes (a + 1) bs (s.putByte a b)

/-- The address lies in the font block 0x000..0x04F (R32). -/
def inFont (a : Addr) : Bool := decide (a.toNat < Config.fontLen)

/-- One of `n` addresses from `a` on, after the wrap, lies in the font block (R36). -/
def touchesFont (a : Addr) (n : Nat) : Bool := (List.range n).any fun k => inFont (a + BitVec.ofNat 12 k)

/-- The stores of `FONT_WRITE_POLICY` = `ignore`: the bytes outside the font block are written, the others dropped, each
store on its own (R36; log entry 11). -/
def State.putBytesOutsideFont : Addr → List Byte → State → State
  | _, [], s => s
  | a, b :: bs, s => State.putBytesOutsideFont (a + 1) bs (if inFont a then s else s.putByte a b)

/-! ## Taking a fault, and the only way out of one -/

/-- `raise K(info)` (R156): the instruction writes nothing, `pc` stays advanced, the cycle has no beep, and the latch
holds the kind, the address of the instruction `(pc - 2) mod 4096` and its word. -/
def State.raise (k : FaultKind) (w : InsnWord) (s : State) : State :=
  { s with fault := some ⟨k, s.pc - Config.insnBytes, w⟩, beep := false }

/-- `reset` of a live engine (R180), the only exit from the faulted state (R165): every piece of the engine's state at
its reset value. The parameters are the machine's and stay. The input ports are not the engine's: `keys` stays what the host
wrote last (R24), and the random source goes on from where it is (log entry 6). -/
def State.resetLive (s : State) : State :=
  { State.resetWith s.params with keys := s.keys, rnd := s.rnd, draws := s.draws }

/-- The store addresses of an instruction raise FontWrite: some one of them, after the wrap, lies in the font block and
the policy is `fault` (R36). -/
def fontFaults (policy : Config.FontWritePolicy) (a : Addr) (n : Nat) : Bool := policy == .fault && touchesFont a n

/-- The byte stores themselves, in ascending order (R35), under the policy. -/
def State.storeBytes (policy : Config.FontWritePolicy) (a : Addr) (bs : List Byte) (s : State) : State :=
  match policy with
  | .fault => s.putBytes a bs
  | .ignore => s.putBytesOutsideFont a bs
  | .write => s.putBytes a bs

/-- The stores of one instruction at `I`, `I+1`, ... (R36, R146): every address is checked before the first byte is
written. `w` is the instruction's word, for the fault record; `after` is what the instruction does once it has stored. -/
def State.storeAtI (policy : Config.FontWritePolicy) (w : InsnWord) (bs : List Byte) (after : State → State)
    (s : State) : State :=
  if fontFaults policy s.idx bs.length then s.raise .fontWrite w else after (s.storeBytes policy s.idx bs)

/-- `for k in 0..x: V[k] <- MemRead(I + k, 1)` (R145), `n` = `x + 1` registers in ascending order. -/
def State.loadFromI (n : Nat) (s : State) : State :=
  (List.range n).foldl (fun t k => t.setReg (Fin.ofNat 16 k) (s.readByte (s.idx + BitVec.ofNat 12 k))) s

/-! ## Stack (R14) -/

/-- `push(a)` (R14): `stack[sp] <- a; sp <- sp + 1`, or StackOverflow when `sp` = 16. `w` is the instruction's word;
`after` is what the instruction does once it has pushed. -/
def State.push (w : InsnWord) (a : Addr) (after : State → State) (s : State) : State :=
  if h : s.sp.val < Config.stackDepth then
    after { s with stack := s.stack.set s.sp.val a h, sp := ⟨s.sp.val + 1, Nat.succ_lt_succ h⟩ }
  else s.raise .stackOverflow w

/-- `pop()` (R14): `sp <- sp - 1; return stack[sp]`, or StackUnderflow when `sp` = 0. The entry is not cleared. The
returned address goes to `pc`, the one use of pop (R81). -/
def State.popPc (w : InsnWord) (s : State) : State :=
  if h : s.sp.val = 0 then s.raise .stackUnderflow w
  else
    { s with
      sp := ⟨s.sp.val - 1, Nat.lt_of_le_of_lt (Nat.sub_le _ _) s.sp.isLt⟩
      pc := s.stack[s.sp.val - 1]'(by have := s.sp.isLt; simp only [Config.stackDepth]; omega) }

/-! ## Display (R115, R117) -/

/-- `disp[y][x]` (R8). -/
def Display.cell (d : Display) (y : Fin 32) (x : Fin 64) : Bool := d[y][x]

/-- `disp[y][x] <- disp[y][x] XOR 1`. -/
def Display.toggle (d : Display) (y : Fin 32) (x : Fin 64) : Display := d.set y (d[y].set x (!d[y][x]))

/-- All cells off (R116). -/
def Display.blank : Display := Vector.replicate Config.dispH (Vector.replicate Config.dispW false)

/-- One pixel of a sprite row (R117): column offset `c` of the row byte `b`, clipped right of column 63. The pair is the
display and `hit`. -/
def drawPixel (b : Byte) (x0 : Nat) (y : Fin 32) (acc : Display × Bool) (c : Nat) : Display × Bool :=
  if h : x0 + c < 64 then
    if b.getLsbD (7 - c) then (acc.1.toggle y ⟨x0 + c, h⟩, acc.2 || acc.1.cell y ⟨x0 + c, h⟩) else acc
  else acc

/-- One row of a sprite (R117): `for c in 0 .. 7`. -/
def drawRow (b : Byte) (x0 : Nat) (y : Fin 32) (acc : Display × Bool) : Display × Bool :=
  (List.range 8).foldl (drawPixel b x0 y) acc

/-- The sprite's row `r` (R117), clipped below row 31; `row r` is its byte. -/
def drawSpriteRow (row : Nat → Byte) (x0 y0 : Nat) (acc : Display × Bool) (r : Nat) : Display × Bool :=
  if h : y0 + r < 32 then drawRow (row r) x0 ⟨y0 + r, h⟩ acc else acc

/-- A sprite of `n` rows (R117): `for r in 0 .. N-1`, with `hit` starting at 0. -/
def drawSprite (row : Nat → Byte) (x0 y0 n : Nat) (d : Display) : Display × Bool :=
  (List.range n).foldl (drawSpriteRow row x0 y0) (d, false)

end Sys2Proof.Machine
end

