-- ==== Sys2Proof/Machine/Operands.lean ====
section
/-!
DEFINITION. The operand forms: what an instruction's operands stand for in a state (spec/30_encoding.md R53,
spec/20_memory.md R33, spec/44_keys_timers.md R125, R128). Immediates `N`, `NN`, `NNN` are taken as they stand.
-/

namespace Sys2Proof.Machine

/-- `zext_12` of a byte (R8). -/
def zext12 (b : Byte) : Addr := b.setWidth 12

/-- The address `(I + k) mod 4096` (R33, R146). -/
def State.atI (s : State) (k : Nat) : Addr := s.idx + BitVec.ofNat 12 k

/-- The register a shift takes its operand from: `SHIFT_SOURCE` (R104, R106, decision D8). -/
def shiftOperand (source : Config.ShiftSource) (x y : Reg) (s : State) : Byte :=
  match source with
  | .vx => s.getReg x
  | .vy => s.getReg y

/-- The register number in bits 11:8 of an address field, which the CHIP-48 reading of `BNNN` uses (log entry 12). -/
def addrX (nnn : Addr) : Reg := Fin.ofNat 16 (nnn.extractLsb' 8 4).toNat

/-- The register `BNNN` adds: `JUMP_OFFSET_REG` (R88, decision D13). -/
def jumpOffset (reg : Config.JumpOffsetReg) (nnn : Addr) (s : State) : Byte :=
  match reg with
  | .v0 => s.getReg 0
  | .vx => s.getReg (addrX nnn)

/-- The key number in a register: its low four bits (R125, decision D16). -/
def keyNumber (b : Byte) : Nat := (b.extractLsb' 0 4).toNat

/-- `key[k]` of this cycle (R8, R19). -/
def State.keyDown (s : State) (k : Nat) : Bool := s.keys.getLsbD k

/-- The lowest `k` in 0..15 with `key[k]` = 1, when there is one (R128). -/
def lowestKey (keys : Keys) : Option Nat := (List.range Config.nKeys).find? fun k => keys.getLsbD k

/-- The highest pressed key, when there is one. -/
def highestKey (keys : Keys) : Option Nat := (List.range Config.nKeys).reverse.find? fun k => keys.getLsbD k

/-- The pressed key that `FX0A` takes, when there is one: `KEY_PICK` (R128, decision D17). Under `any` it is the one a
free choice names, or the lowest where that choice names a key that is not down (log entry 20). -/
def pickKey (pick : Config.KeyPick) (s : State) : Option Nat :=
  match pick with
  | .lowest => lowestKey s.keys
  | .highest => highestKey s.keys
  | .any =>
    if s.keyDown (Config.keyChoice s.draws s.keys).val then some (Config.keyChoice s.draws s.keys).val
    else lowestKey s.keys

/-- The registers `V[0]`..`V[x]` in ascending order (R144). -/
def State.regsUpTo (s : State) (x : Reg) : List Byte := s.v.toList.take (x.val + 1)

/-- Hundreds, tens and ones of a byte, each in a byte of its own (R143). -/
def bcdDigits (b : Byte) : List Byte := [b / 100, b / 10 % 10, b % 10]

/-- The address of the glyph of a character value: `5 * zext_12(V[X]) + FONT_BASE` (R142). -/
def glyphAddr (b : Byte) : Addr := BitVec.ofNat 12 Config.glyphBytes * zext12 b + Config.fontBase

/-- The index register after `FX55` or `FX65`: unchanged, or advanced by `X + 1` under `LOADSTORE_INCREMENTS_I` (R146,
decision D14). -/
def State.bumpIdx (increments : Bool) (x : Reg) (s : State) : State :=
  if increments then s.setIdx (s.atI (x.val + 1)) else s

end Sys2Proof.Machine
end

