-- ==== Sys2Proof/Machine/ControlTransfer.lean ====
section
/-!
DEFINITION. The meanings of the control-transfer instructions (spec/41_control_transfer.md R80 to R89): the execute
phase of the cycle, in which `pc` is already the address after the instruction (spec/40_cycle_dispatch.md R67).
-/

namespace Sys2Proof.Machine

open Host (Outcome)

/-- `0NNN` SYS (R80): nothing. -/
def execSys (_nnn : Addr) (s : State) : Outcome State Fault Refusal := .next s

/-- `00EE` RET (R81). -/
def execRet (s : State) : Outcome State Fault Refusal := .next (s.popPc (encode .ret))

/-- `1NNN` JP (R82). -/
def execJp (nnn : Addr) (s : State) : Outcome State Fault Refusal := .next (s.setPc nnn)

/-- `2NNN` CALL (R83): the pushed `pc` is the address after the CALL. -/
def execCall (nnn : Addr) (s : State) : Outcome State Fault Refusal :=
  .next (s.push (encode (.call nnn)) s.pc (State.setPc nnn))

/-- `3XNN` SE Vx, NN (R84). -/
def execSeImm (x : Reg) (nn : Byte) (s : State) : Outcome State Fault Refusal := .next (s.skipIf (s.getReg x == nn))

/-- `4XNN` SNE Vx, NN (R85). -/
def execSneImm (x : Reg) (nn : Byte) (s : State) : Outcome State Fault Refusal := .next (s.skipIf (s.getReg x != nn))

/-- `5XY0` SE Vx, Vy (R86). -/
def execSeReg (x y : Reg) (s : State) : Outcome State Fault Refusal := .next (s.skipIf (s.getReg x == s.getReg y))

/-- `9XY0` SNE Vx, Vy (R87). -/
def execSneReg (x y : Reg) (s : State) : Outcome State Fault Refusal := .next (s.skipIf (s.getReg x != s.getReg y))

/-- `BNNN` JP V0 (R88). -/
def execJpV0 (nnn : Addr) (s : State) : Outcome State Fault Refusal :=
  .next (s.setPc (nnn + zext12 (jumpOffset s.params.jumpOffsetReg nnn s)))

end Sys2Proof.Machine
end

