-- ==== Sys2Proof/Machine/Flags.lean ====
section
/-!
DEFINITION. The flag computations: what the six instructions that write VF leave in it (spec/10_state.md R11,
spec/42_register_alu.md R95, R102 to R106, spec/43_display.md R117).
-/

namespace Sys2Proof.Machine

/-- The number of the flag register VF (R11). -/
def flagReg : Reg := 0xF

/-- The byte 1 or 0 that a condition leaves in VF (R11). -/
def flagByte (c : Bool) : Byte := if c then 1 else 0

/-- Carry out of an addition: bit 8 of the 9-bit sum (R102). -/
def carryOut (a b : Byte) : Bool := (a.setWidth 9 + b.setWidth 9).getLsbD 8

/-- No borrow in `a - b`: the minuend is at least the subtrahend, equality included (R95, R103, R105). -/
def noBorrow (a b : Byte) : Bool := decide (b ≤ a)

/-- The bit a right shift by one shifts out (R104). -/
def shiftedOutRight (a : Byte) : Bool := a.getLsbD 0

/-- The bit a left shift by one shifts out (R106). -/
def shiftedOutLeft (a : Byte) : Bool := a.getLsbD 7

/-- VF <- 1 or 0 (R11). -/
def State.setFlag (c : Bool) (s : State) : State := s.setReg flagReg (flagByte c)

/-- The result to `V[x]`, then the flag to VF, last (R95 "Order", decision D9). -/
def State.setResultAndFlag (x : Reg) (result : Byte) (flag : Bool) (s : State) : State :=
  (s.setReg x result).setFlag flag

end Sys2Proof.Machine
end

