-- ==== Sys2Proof/Machine/DisplayInsns.lean ====
section
/-!
DEFINITION. The meanings of the display instructions (spec/43_display.md R115 to R117).
-/

namespace Sys2Proof.Machine

open Host (Outcome)

/-- `00E0` CLS (R116). -/
def execCls (s : State) : Outcome State Fault Refusal := .next (s.setDisp Display.blank)

/-- The display and `hit` after `DXYN` (R117): anchor `V[X] mod 64`, `V[Y] mod 32`, row `r` from `(I + r) mod 4096`. -/
def spriteResult (x y : Reg) (n : Height) (s : State) : Display × Bool :=
  drawSprite (fun r => s.readByte (s.atI r)) ((s.getReg x).toNat % Config.dispW) ((s.getReg y).toNat % Config.dispH)
    n.val s.disp

/-- `DXYN` DRW Vx, Vy, N (R117): VF is written last, in every case. -/
def execDrw (x y : Reg) (n : Height) (s : State) : Outcome State Fault Refusal :=
  .next ((s.setDisp (spriteResult x y n s).1).setFlag (spriteResult x y n s).2)

end Sys2Proof.Machine
end

