-- ==== Sys2Proof/Machine/IndexMemory.lean ====
section
/-!
DEFINITION. The meanings of the index-register and memory instructions (spec/45_index_memory.md R140 to R146).
-/

namespace Sys2Proof.Machine

open Host (Outcome)

/-- `ANNN` LD I, NNN (R140). -/
def execLdI (nnn : Addr) (s : State) : Outcome State Fault Refusal := .next (s.setIdx nnn)

/-- `FX1E` ADD I, Vx (R141): no flag. -/
def execAddI (x : Reg) (s : State) : Outcome State Fault Refusal := .next (s.setIdx (s.idx + zext12 (s.getReg x)))

/-- `FX29` LD F, Vx (R142). -/
def execLdF (x : Reg) (s : State) : Outcome State Fault Refusal := .next (s.setIdx (glyphAddr (s.getReg x)))

/-- `FX33` LD B, Vx (R143). -/
def execLdB (x : Reg) (s : State) : Outcome State Fault Refusal :=
  .next (s.storeAtI s.params.fontWritePolicy (encode (.ldB x)) (bcdDigits (s.getReg x)) id)

/-- `FX55` LD [I], Vx (R144). -/
def execStoreRegs (x : Reg) (s : State) : Outcome State Fault Refusal :=
  .next (s.storeAtI s.params.fontWritePolicy (encode (.storeRegs x)) (s.regsUpTo x)
    (State.bumpIdx s.params.loadStoreIncrementsI x))

/-- `FX65` LD Vx, [I] (R145). -/
def execLoadRegs (x : Reg) (s : State) : Outcome State Fault Refusal :=
  .next (State.bumpIdx s.params.loadStoreIncrementsI x (s.loadFromI (x.val + 1)))

end Sys2Proof.Machine
end

