-- ==== Sys2Proof/Machine/KeysTimers.lean ====
section
/-!
DEFINITION. The meanings of the key and timer instructions (spec/44_keys_timers.md R125 to R130). The keys are those of
this cycle (spec/40_cycle_dispatch.md R73).
-/

namespace Sys2Proof.Machine

open Host (Outcome)

/-- `EX9E` SKP Vx (R125). -/
def execSkp (x : Reg) (s : State) : Outcome State Fault Refusal :=
  .next (s.skipIf (s.keyDown (keyNumber (s.getReg x))))

/-- `EXA1` SKNP Vx (R126). -/
def execSknp (x : Reg) (s : State) : Outcome State Fault Refusal :=
  .next (s.skipIf (!s.keyDown (keyNumber (s.getReg x))))

/-- `FX07` LD Vx, DT (R127). -/
def execLdVxDt (x : Reg) (s : State) : Outcome State Fault Refusal := .next (s.setReg x s.dt)

/-- `FX0A` LD Vx, K (R128): with no key down, back to this instruction; else the number of the picked key. -/
def execLdVxK (x : Reg) (s : State) : Outcome State Fault Refusal :=
  match pickKey s.params.keyPick s with
  | none => .next (s.setPc (s.pc - Config.insnBytes))
  | some k => .next (s.setReg x (BitVec.ofNat 8 k))

/-- `FX15` LD DT, Vx (R129). -/
def execLdDtVx (x : Reg) (s : State) : Outcome State Fault Refusal := .next (s.setDt (s.getReg x))

/-- `FX18` LD ST, Vx (R130). -/
def execLdStVx (x : Reg) (s : State) : Outcome State Fault Refusal := .next (s.setSt (s.getReg x))

end Sys2Proof.Machine
end

