-- ==== Sys2Proof/Machine/RegisterAlu.lean ====
section
/-!
DEFINITION. The meanings of the register instructions (spec/42_register_alu.md R95 to R107): load, arithmetic, logic,
shift, random. Every source register is read before `V[X]` is written, and VF is written last (R95).
-/

namespace Sys2Proof.Machine

open Host (Outcome)

/-- `6XNN` LD Vx, NN (R96). -/
def execLdImm (x : Reg) (nn : Byte) (s : State) : Outcome State Fault Refusal := .next (s.setReg x nn)

/-- `7XNN` ADD Vx, NN (R97): no flag. -/
def execAddImm (x : Reg) (nn : Byte) (s : State) : Outcome State Fault Refusal := .next (s.setReg x (s.getReg x + nn))

/-- `8XY0` LD Vx, Vy (R98). -/
def execLdReg (x y : Reg) (s : State) : Outcome State Fault Refusal := .next (s.setReg x (s.getReg y))

/-- `8XY1` OR (R99): no flag. -/
def execOrReg (x y : Reg) (s : State) : Outcome State Fault Refusal := .next (s.setReg x (s.getReg x ||| s.getReg y))

/-- `8XY2` AND (R100): no flag. -/
def execAndReg (x y : Reg) (s : State) : Outcome State Fault Refusal := .next (s.setReg x (s.getReg x &&& s.getReg y))

/-- `8XY3` XOR (R101): no flag. -/
def execXorReg (x y : Reg) (s : State) : Outcome State Fault Refusal := .next (s.setReg x (s.getReg x ^^^ s.getReg y))

/-- `8XY4` ADD Vx, Vy (R102). -/
def execAddReg (x y : Reg) (s : State) : Outcome State Fault Refusal :=
  .next (s.setResultAndFlag x (s.getReg x + s.getReg y) (carryOut (s.getReg x) (s.getReg y)))

/-- `8XY5` SUB Vx, Vy (R103): Vx - Vy. -/
def execSub (x y : Reg) (s : State) : Outcome State Fault Refusal :=
  .next (s.setResultAndFlag x (s.getReg x - s.getReg y) (noBorrow (s.getReg x) (s.getReg y)))

/-- `8XY6` SHR Vx (R104). -/
def execShr (x y : Reg) (s : State) : Outcome State Fault Refusal :=
  .next (s.setResultAndFlag x (shiftOperand s.params.shiftSource x y s >>> 1)
    (shiftedOutRight (shiftOperand s.params.shiftSource x y s)))

/-- `8XY7` SUBN Vx, Vy (R105): Vy - Vx. -/
def execSubn (x y : Reg) (s : State) : Outcome State Fault Refusal :=
  .next (s.setResultAndFlag x (s.getReg y - s.getReg x) (noBorrow (s.getReg y) (s.getReg x)))

/-- `8XYE` SHL Vx (R106). -/
def execShl (x y : Reg) (s : State) : Outcome State Fault Refusal :=
  .next (s.setResultAndFlag x (shiftOperand s.params.shiftSource x y s <<< 1)
    (shiftedOutLeft (shiftOperand s.params.shiftSource x y s)))

/-- `CXNN` RND Vx, NN (R107): the byte on the random port of this cycle, masked. -/
def execRnd (x : Reg) (nn : Byte) (s : State) : Outcome State Fault Refusal := .next (s.setReg x (s.rnd &&& nn))

end Sys2Proof.Machine
end

