-- ==== Sys2Proof/Machine/Cycle.lean ====
section
/-!
DEFINITION. The phases of the cycle: fetch, advance, dispatch and execute, timer ticks, beep
(spec/40_cycle_dispatch.md R65 to R73).
-/

namespace Sys2Proof.Machine

open Host (Outcome)

/-- Fetch (R66): `MemRead(pc, 2)`, the two bytes at `pc` and `(pc + 1) mod 4096`, big-endian. -/
def State.fetchWord (s : State) : InsnWord := wordOfBytes (s.readByte s.pc) (s.readByte (s.pc + 1))

/-- Advance (R67): `pc <- (pc + 2) mod 4096`. -/
def State.advance (s : State) : State := s.setPc (s.pc + Config.insnBytes)

/-- Dispatch and execute (R68): the instruction of the word, or nothing when no row matches it (R57). -/
def execWord (w : InsnWord) (s : State) : Outcome State Fault Refusal :=
  match decode w with
  | .ok i => exec i s
  | .error _ => .next s

/-- Delay timer tick (R69). -/
def State.tickDelay (s : State) : State := if s.dt = 0 then s else s.setDt (s.dt - 1)

/-- Sound timer tick and beep (R70, R71): the beep is raised by the decrement that takes `ST` from 1 to 0. -/
def State.tickSound (s : State) : State :=
  if s.st = 0 then s.setBeep false else (s.setSt (s.st - 1)).setBeep (s.st - 1 == 0)

/-- The timer phase (R65), skipped when the cycle's execute raised a fault (R72). -/
def State.timerPhase (s : State) : State := if s.fault.isSome then s else s.tickDelay.tickSound

/-- The random source presents the next byte (R22, R73: afresh for every cycle). Log entry 3. -/
def State.nextDraw (s : State) : State := { s with draws := s.draws + 1, rnd := Config.rndDraw (s.draws + 1) }

/-- A cycle has run since reset: `rom_load` is over (R182). Log entry 5. -/
def State.markRunning (s : State) : State := { s with boot := .running }

/-- What follows the execute phase in a cycle. -/
def State.endCycle (s : State) : State := s.timerPhase.nextDraw.markRunning

/-- One cycle (R65). A faulted engine performs no further cycle (R21, R156): the model has no move there. -/
def State.cycle (s : State) : Outcome State Fault Refusal :=
  match s.fault with
  | some record => .fault (.stuck record)
  | none =>
    match execWord s.fetchWord s.advance with
    | .next t => .next t.endCycle
    | .fault f => .fault f
    | .refused r => .refused r

end Sys2Proof.Machine
end

