-- ==== Sys2Proof/Machine/Step.lean ====
section
/-!
DEFINITION. The step: one cycle (spec/40_cycle_dispatch.md R65); and where the host places an instruction word for the
next step to run.
-/

namespace Sys2Proof.Machine

/-- One step is one cycle (R65), with the keys and the random byte that stand on the input ports (R73). -/
def step (s : State) : Host.Outcome State Fault Refusal := s.cycle

/-- The state with an instruction word stored where the next step fetches it, the byte at the lower address first (R31),
and the fault latch clear, without which no step fetches (R72). It stands for the load from outside (R182; log entry 7). -/
def State.withFetchWord (s : State) (nbits w : Nat) : State :=
  { (s.putByte s.pc (wordHigh (tableWord nbits w))).putByte (s.pc + 1) (wordLow (tableWord nbits w)) with fault := none }

end Sys2Proof.Machine
end

