-- ==== Sys2Proof/Machine/HostPort.lean ====
section
/-!
DEFINITION. What the host does at the ports, between cycles only (spec/10_state.md R23,
spec/70_reset_and_hazards.md R180 to R187).
-/

namespace Sys2Proof.Machine

open Host (Outcome)

/-- The host's actions on the block (R187). -/
inductive HostAction where
  /-- the `reset` port (R180) -/
  | reset
  /-- `rom_load(bytes)` (R182) -/
  | romLoad (bytes : List Byte)
  /-- the host writes the key vector (R19) -/
  | setKeys (keys : Keys)
  /-- a request for one cycle, with the byte the random source presents for it (R73) -/
  | cycle (rnd : Byte)
  deriving DecidableEq, Repr

/-- What the engine gives back (R187). -/
inductive HostReply where
  | done
  /-- `LoadError` of `rom_load` (R160, R183) -/
  | loadError
  /-- the outputs of a cycle: the beep and the fault latch -/
  | cycleDone (beep : Bool) (fault : Option FaultRecord)
  deriving DecidableEq, Repr

/-- `rom_load(bytes)` (R182, R183): allowed once, after reset and before the first cycle; an image longer than `ROM_MAX`
gives LoadError and changes nothing. It does not go through `MemWrite`. -/
def State.romLoad (bytes : List Byte) (s : State) : Outcome (State × HostReply) Fault Refusal :=
  match s.boot with
  | .fresh =>
    if bytes.length ≤ Config.romMax then .next ({ s.putBytes Config.romBase bytes with boot := .loaded }, .done)
    else .next (s, .loadError)
  | .loaded => .refused .romLoadNotAllowed
  | .running => .refused .romLoadNotAllowed

/-- The reply of a finished cycle (R187). -/
def State.cycleReply (s : State) : HostReply := .cycleDone s.beep s.fault

/-- A request for one cycle (R65, R73). A faulted engine returns at once with no state change and no beep (R72). -/
def State.requestCycle (rnd : Byte) (s : State) : Outcome (State × HostReply) Fault Refusal :=
  match s.fault with
  | some record => .next (s, .cycleDone false (some record))
  | none =>
    match step { s with rnd := rnd } with
    | .next t => .next (t, t.cycleReply)
    | .fault f => .fault f
    | .refused r => .refused r

/-- One host action. -/
def hostStep (a : HostAction) (s : State) : Outcome (State × HostReply) Fault Refusal :=
  match a with
  | .reset => .next (s.resetLive, .done)
  | .romLoad bytes => s.romLoad bytes
  | .setKeys keys => .next ({ s with keys := keys }, .done)
  | .cycle rnd => s.requestCycle rnd

/-- A run: the host's actions in order (R74), stopping at the first refusal. -/
def hostRun : List HostAction → State → Outcome State Fault Refusal
  | [], s => .next s
  | a :: as, s =>
    match hostStep a s with
    | .next (t, _) => hostRun as t
    | .fault f => .fault f
    | .refused r => .refused r

/-- `Cycle(state, keys, rnd)` (R65): one cycle with the keys and the random byte the host and the random source
supply for it (R73). -/
def cycleWith (keys : Keys) (rnd : Byte) (s : State) : Outcome State Fault Refusal := step { s with keys := keys, rnd := rnd }

/-- A run of cycles (R74), one for each pair of a key value and a random byte. A faulted engine performs none (R21). -/
def runCycles : List (Keys × Byte) → State → Outcome State Fault Refusal
  | [], s => .next s
  | (keys, rnd) :: ins, s =>
    match cycleWith keys rnd s with
    | .next t => runCycles ins t
    | .fault f => .fault f
    | .refused r => .refused r

/-- How many cycles of a run raise the beep (R20, R71). -/
def beepCount : List (Keys × Byte) → State → Nat
  | [], _ => 0
  | (keys, rnd) :: ins, s =>
    match cycleWith keys rnd s with
    | .next t => (if t.beep then 1 else 0) + beepCount ins t
    | .fault _ => 0
    | .refused _ => 0

/-! ## What the host reads -/

/-- The display as the host sees it: linear cell index `y*64 + x`, row-major (R18). -/
def State.displayCell (s : State) (k : Fin 2048) : Bool :=
  s.disp.cell ⟨k.val / 64, Nat.div_lt_of_lt_mul (by omega)⟩ ⟨k.val % 64, Nat.mod_lt _ (by omega)⟩

/-- The codes of the fault kinds (R155). -/
def FaultKind.code : FaultKind → Nat
  | .stackOverflow => 1
  | .stackUnderflow => 2
  | .fontWrite => 3

end Sys2Proof.Machine
end

