-- ==== Sys2Proof/Safety.lean ====
section
/-!
DEFINITION. What counts as a safe run, in the terms claims use: the invariants of the machine, a faulted engine, the
normal end of a run (spec/60_exceptions.md R156, spec/70_reset_and_hazards.md R195).
-/

namespace Sys2Proof.Machine

/-- No fault is latched (R21). -/
def State.healthy (s : State) : Prop := s.fault = none

/-- A run has ended normally: no fault, and the word at `pc` is a jump to itself (R195, decision D26). -/
def State.ended (s : State) : Prop := s.fault = none ∧ s.fetchWord = encode (.jp s.pc)

/-- The font block holds the machine's font (R17, R32 "immutable"). -/
def State.fontIntact (s : State) : Prop :=
  ∀ a : Addr, a.toNat < Config.fontLen → s.readByte a = resetByte s.params.font a.toNat

/-- What holds of the machine between cycles: memory is in its canonical form (the model's representation, log entry 8),
the font is intact unless FONT_WRITE_POLICY makes the font block ordinary memory (R36), and a faulted engine raises no
beep (R72; that the beep is a field is log entry 2). -/
structure State.Inv (s : State) : Prop where
  memCanonical : Memory.wf s.params.font s.mem = true
  fontIntact : s.params.fontWritePolicy ≠ .write → s.fontIntact
  faultSilent : s.fault ≠ none → s.beep = false

end Sys2Proof.Machine
end

