-- ==== Sys2Proof/Certificates/Slice0/Obligations.lean ====
section
/-!
DEFINITION. The statements about the machine, from the numbered rules of spec/. They state and never prove.
-/

namespace Sys2Proof.Claims

open Sys2Proof.Machine

/-- The state that the execute phase of a cycle from `s` starts in: `pc` advanced by 2 (R67). -/
def advanced (s : State) : State := { s with pc := s.pc + 2 }

/-- The word the cycle from `s` fetches (R66): the bytes at `pc` and `pc + 1`, the first in bits 15:8. -/
def wordAtPc (s : State) : InsnWord := s.readByte s.pc ++ s.readByte (s.pc + 1)

/-- The execute phase of the cycle from `s` ends in `t` (R68): the decoded instruction answers `t`, or no row matches
the word and nothing is done. -/
def Executes (s t : State) : Prop :=
  (∃ i, decode (wordAtPc s) = .ok i ∧ exec i (advanced s) = .next t) ∨
    ((∃ e, decode (wordAtPc s) = .error e) ∧ t = advanced s)

/-- Everything the spec gives the machine but the two timers and the beep is the same in both states. -/
def AgreeOutsideTimers (t u : State) : Prop :=
  u.v = t.v ∧ u.pc = t.pc ∧ u.idx = t.idx ∧ u.stack = t.stack ∧ u.sp = t.sp ∧ u.mem = t.mem ∧ u.disp = t.disp ∧
    u.keys = t.keys ∧ u.fault = t.fault ∧ u.params = t.params

/-- Both timers of `u` are those of `t` after the ticks, and the beep of `u` is that of the ticks (R69, R70, R71). -/
def TimersTicked (t u : State) : Prop :=
  u.dt.toNat = t.dt.toNat - 1 ∧ u.st.toNat = t.st.toNat - 1 ∧ (u.beep = true ↔ t.st = 1)

/-- Stores of `n` bytes from `I` on raise FontWrite: FONT_WRITE_POLICY is `fault`, and one of the wrapped addresses lies
in the font block (R36, R159). -/
abbrev storeFaults (s : State) (n : Nat) : Prop :=
  s.params.fontWritePolicy = .fault ∧ ∃ k < n, (s.idx.toNat + k) % 4096 ≤ 0x04F

/-- A byte stored at `a` is dropped: FONT_WRITE_POLICY is `ignore`, and `a` lies in the font block (R36; log entry
11). -/
abbrev storeDropped (s : State) (a : Addr) : Prop := s.params.fontWritePolicy = .ignore ∧ a.toNat ≤ 0x04F

/-- The register a shift takes its operand from: `X`, or `Y` where SHIFT_SOURCE is Vy (R7, R104, R106). -/
def shiftSourceReg (x y : Reg) (s : State) : Reg := if s.params.shiftSource = .vy then y else x

/-- `I` after a block store or load: unchanged, or `X + 1` higher modulo 4096 where LOADSTORE_INCREMENTS_I is set (R7,
R146, D14; log entry 13). -/
def idxAfterBlock (x : Reg) (s : State) : Addr :=
  if s.params.loadStoreIncrementsI = true then s.idx + BitVec.ofNat 12 (x.val + 1) else s.idx

/-- The fault that instruction `i` meets in state `s`, by the conditions of R155. -/
def faultCondition (i : Instr) (s : State) : Option FaultKind :=
  match i with
  | .call _ => if s.sp.val = 16 then some .stackOverflow else none
  | .ret => if s.sp.val = 0 then some .stackUnderflow else none
  | .ldB _ => if storeFaults s 3 then some .fontWrite else none
  | .storeRegs x => if storeFaults s (x.val + 1) then some .fontWrite else none
  | _ => none

/-- The cell in row `row` and column `col` is an unclipped 1 bit of the sprite that `DXYN` draws in `s` (R115, R117):
anchor `V[X] mod 64`, `V[Y] mod 32`; bit 7 of a row byte leftmost; row `r` from `(I + r) mod 4096`. -/
def spritePixel (x y : Reg) (n : Height) (s : State) (row : Fin 32) (col : Fin 64) : Bool :=
  let x0 := s.v[x].toNat % 64
  let y0 := s.v[y].toNat % 32
  decide (y0 ≤ row.val ∧ row.val < y0 + n.val ∧ x0 ≤ col.val ∧ col.val < x0 + 8) &&
    (s.readByte (s.idx + BitVec.ofNat 12 (row.val - y0))).getLsbD (7 - (col.val - x0))

/-- The word that the cycle from `s` fetches is no `FX15`. -/
def NoDelayWrite (s : State) : Prop := ∀ x, decode (wordAtPc s) ≠ .ok (.ldDtVx x)

/-- The components of the state that the access matrix R26 has columns for, the input ports, and the parameters. -/
inductive Component where
  | regs | pc | idx | stack | dt | st | mem | disp | ports | params
  deriving DecidableEq, Repr

/-- A component of one state is the same in another. -/
def Component.same (c : Component) (s t : State) : Prop :=
  match c with
  | .regs => t.v = s.v
  | .pc => t.pc = s.pc
  | .idx => t.idx = s.idx
  | .stack => t.stack = s.stack ∧ t.sp = s.sp
  | .dt => t.dt = s.dt
  | .st => t.st = s.st
  | .mem => t.mem = s.mem
  | .disp => t.disp = s.disp
  | .ports => t.keys = s.keys ∧ t.rnd = s.rnd
  | .params => t.params = s.params

/-- The components that the row of an instruction in R26 marks with a "w", and `I` for the block store and load of a
machine with LOADSTORE_INCREMENTS_I (R7, R146). -/
def writes (p : Config.Params) : Instr → List Component
  | .sys _ => []
  | .cls => [.disp]
  | .ret => [.pc, .stack]
  | .jp _ => [.pc]
  | .call _ => [.pc, .stack]
  | .seImm _ _ => [.pc]
  | .sneImm _ _ => [.pc]
  | .seReg _ _ => [.pc]
  | .sneReg _ _ => [.pc]
  | .ldImm _ _ => [.regs]
  | .addImm _ _ => [.regs]
  | .ldReg _ _ => [.regs]
  | .orReg _ _ => [.regs]
  | .andReg _ _ => [.regs]
  | .xorReg _ _ => [.regs]
  | .addReg _ _ => [.regs]
  | .sub _ _ => [.regs]
  | .shr _ _ => [.regs]
  | .subn _ _ => [.regs]
  | .shl _ _ => [.regs]
  | .ldI _ => [.idx]
  | .jpV0 _ => [.pc]
  | .rnd _ _ => [.regs]
  | .drw _ _ _ => [.regs, .disp]
  | .skp _ => [.pc]
  | .sknp _ => [.pc]
  | .ldVxDt _ => [.regs]
  | .ldVxK _ => [.regs, .pc]
  | .ldDtVx _ => [.dt]
  | .ldStVx _ => [.st]
  | .addI _ => [.idx]
  | .ldF _ => [.idx]
  | .ldB _ => [.mem]
  | .storeRegs _ => if p.loadStoreIncrementsI then [.mem, .idx] else [.mem]
  | .loadRegs _ => if p.loadStoreIncrementsI then [.regs, .idx] else [.regs]

/-- The registers an instruction may write: its `X`, VF for the six of R11, V0 to Vx for the block load. -/
def writesReg (i : Instr) (r : Reg) : Bool :=
  match i with
  | .ldImm x _ => r == x
  | .addImm x _ => r == x
  | .ldReg x _ => r == x
  | .orReg x _ => r == x
  | .andReg x _ => r == x
  | .xorReg x _ => r == x
  | .addReg x _ => r == x || r == 15
  | .sub x _ => r == x || r == 15
  | .shr x _ => r == x || r == 15
  | .subn x _ => r == x || r == 15
  | .shl x _ => r == x || r == 15
  | .rnd x _ => r == x
  | .drw _ _ _ => r == 15
  | .ldVxDt x => r == x
  | .ldVxK x => r == x
  | .loadRegs x => decide (r ≤ x)
  | _ => false

/-- The instructions that read the keys (R19). -/
def readsKeys : Instr → Bool
  | .skp _ => true
  | .sknp _ => true
  | .ldVxK _ => true
  | _ => false

end Sys2Proof.Claims

open Sys2Proof Sys2Proof.Machine Sys2Proof.Claims

/-- R51, R52, R56 on words written out from them (95_test_vectors.md). -/
def Obligations.DecodesWrittenWords : Prop :=
  decode 0b0000000100100011#16 = .ok (.sys 0x123) ∧
  decode 0b0000000011100000#16 = .ok .cls ∧
  decode 0b0000000011101110#16 = .ok .ret ∧
  decode 0b0001101010111100#16 = .ok (.jp 0xABC) ∧
  decode 0b0010001100000000#16 = .ok (.call 0x300) ∧
  decode 0b0011001100101010#16 = .ok (.seImm 3 0x2A) ∧
  decode 0b0101000100100000#16 = .ok (.seReg 1 2) ∧
  decode 0b1000000100100100#16 = .ok (.addReg 1 2) ∧
  decode 0b1000000100101110#16 = .ok (.shl 1 2) ∧
  decode 0b1100000100001111#16 = .ok (.rnd 1 0x0F) ∧
  decode 0b1101000100100101#16 = .ok (.drw 1 2 5) ∧
  decode 0b1110001010011110#16 = .ok (.skp 2) ∧
  decode 0b1111001100001010#16 = .ok (.ldVxK 3) ∧
  decode 0b1111001001010101#16 = .ok (.storeRegs 2) ∧
  decode 0b0101000100100001#16 = .error .family5LowNibble ∧
  decode 0b1001000100100101#16 = .error .family9LowNibble

/-- R56, R60: no bit of an operand is dropped between encoding and decoding. -/
def Obligations.DecodeInvertsEncode : Prop :=
  ∀ i : Instr, i.wf = true → decode (encode i) = .ok i

/-- R60: every word has exactly one meaning; the other direction of the round trip. -/
def Obligations.EncodeInvertsDecode : Prop :=
  ∀ (w : InsnWord) (i : Instr), decode w = .ok i → i.wf = true ∧ encode i = w

/-- R56: a word selects the row for which `w AND mask = match`; `SYS` applies only when neither `00E0` nor `00EE`
matches.
Rests on the decision D6 of spec/92_eei_decisions.md; log entry 19. -/
def Obligations.DecoderFollowsOpcodeMap : Prop :=
  ∀ w : InsnWord,
    (∀ i, decode w = .ok i →
      rowMatches (opcodeRow i) w = true ∧
        (opcodeRow i = sysRow → ∀ r ∈ properRows, rowMatches r w = false)) ∧
    ((∃ e, decode w = .error e) ↔ ∀ r ∈ sysRow :: properRows, rowMatches r w = false)

/-- R56: rows other than `SYS` never overlap. -/
def Obligations.OpcodeRowsNeverOverlap : Prop :=
  properRows.length = 34 ∧
    properRows.Pairwise fun r r' => ∀ w : InsnWord, ¬ (rowMatches r w = true ∧ rowMatches r' w = true)

/-- R66, R31, R33, R34.
Rests on the decisions D2, D3 of spec/92_eei_decisions.md; log entries 14, 15. -/
def Obligations.FetchIsBigEndianAndWraps : Prop :=
  ∀ (s : State) (a : Addr), a.toNat = (s.pc.toNat + 1) % 4096 →
    s.fetchWord.toNat = 256 * (s.readByte s.pc).toNat + (s.readByte a).toNat

/-- R65 to R68: fetch, advance, dispatch and execute, then the end of the cycle. -/
def Obligations.StepRunsDecodedInstruction : Prop :=
  ∀ (s : State) (i : Instr) (t : State), s.fault = none →
    decode (s.readByte s.pc ++ s.readByte (s.pc + 1)) = .ok i →
    exec i { s with pc := s.pc + 2 } = .next t → step s = .next t.endCycle

/-- R69, R70, R71; the tick is skipped in a faulting cycle (R72).
Rests on the decisions D20 (the beep), D5 (a faulting cycle) of spec/92_eei_decisions.md; log entries 23, 1. -/
def Obligations.TimersTickAtCycleEnd : Prop :=
  ∀ s t : State, s.fault = none → Executes s t →
    ∃ u, step s = .next u ∧ AgreeOutsideTimers t u ∧
      (t.fault = none → TimersTicked t u) ∧
      (t.fault ≠ none → u.dt = t.dt ∧ u.st = t.st ∧ u.beep = false)

/-- R57: no encoding traps as illegal.
Rests on the decisions D6, D7 of spec/92_eei_decisions.md; log entry 19. -/
def Obligations.UnmappedWordsAreNoOps : Prop :=
  ∀ s : State, s.fault = none →
    ((∃ e, decode (wordAtPc s) = .error e) ∨ ∃ nnn, decode (wordAtPc s) = .ok (.sys nnn)) →
    ∃ u, step s = .next u ∧ AgreeOutsideTimers (advanced s) u ∧ TimersTicked s u

/-- R72 at the host's port, R156 for the machine, which is stuck after a fault (93_implementation_defined.md U16).
Rests on the decision D5 of spec/92_eei_decisions.md; log entry 1. -/
def Obligations.FaultingCycleIsPrecise : Prop :=
  ∀ (s t : State) (f : FaultRecord), s.fault = none → step s = .next t → t.fault = some f →
    f.addr = s.pc ∧ f.word = wordAtPc s ∧
      t.v = s.v ∧ t.pc = s.pc + 2 ∧ t.idx = s.idx ∧ t.stack = s.stack ∧ t.sp = s.sp ∧ t.dt = s.dt ∧ t.st = s.st ∧
      t.mem = s.mem ∧ t.disp = s.disp ∧ t.keys = s.keys ∧ t.params = s.params ∧
      t.beep = false ∧ step t = .fault (.stuck f) ∧
      ∀ b : Byte, hostStep (.cycle b) t = .next (t, .cycleDone false (some f))

/-- R155: no other instruction can fault, and fetch cannot fault.
Rests on the decisions D4, D5, D21 of spec/92_eei_decisions.md; log entries 16, 1, 10, 26. -/
def Obligations.FaultsExactlyUnderTheirConditions : Prop :=
  (∀ s t : State, s.fault = none → step s = .next t →
    t.fault.map FaultRecord.kind =
      match decode (wordAtPc s) with
      | .ok i => faultCondition i s
      | .error _ => none) ∧
  FaultKind.code .stackOverflow = 1 ∧ FaultKind.code .stackUnderflow = 2 ∧ FaultKind.code .fontWrite = 3

/-- R68, R74: the engine has no way to refuse a cycle other than the fault latch; R156.
Rests on the decisions D2, D3, D5 of spec/92_eei_decisions.md; log entry 1. -/
def Obligations.EveryCycleAnswers : Prop :=
  (∀ (i : Instr) (s : State), ∃ t, exec i s = .next t) ∧
    ∀ s : State, (s.fault = none → ∃ t, step s = .next t) ∧
      ∀ f : FaultRecord, s.fault = some f → step s = .fault (.stuck f)

/-- R80. -/
def Obligations.SysChangesNothing : Prop :=
  ∀ (nnn : Addr) (s : State),
    (nnn ≠ 0x0E0 → nnn ≠ 0x0EE → decode (0x0#4 ++ nnn) = .ok (.sys nnn)) ∧ exec (.sys nnn) s = .next s

/-- R82. -/
def Obligations.JumpSetsPc : Prop :=
  ∀ (nnn : Addr) (s : State),
    decode (0x1#4 ++ nnn) = .ok (.jp nnn) ∧ exec (.jp nnn) s = .next { s with pc := nnn }

/-- R88, R7; which register `Vx` names is the model's reading (log entry 12).
Rests on the decisions D13 (V0), D2 (the wrap) of spec/92_eei_decisions.md; log entries 10, 12, 14, 26. -/
def Obligations.JumpV0AddsV0 : Prop :=
  ∀ (nnn : Addr) (s : State),
    decode (0xB#4 ++ nnn) = .ok (.jpV0 nnn) ∧
    ∃ t, exec (.jpV0 nnn) s = .next t ∧ t = { s with pc := t.pc } ∧
      (s.params.jumpOffsetReg = .v0 → t.pc.toNat = (nnn.toNat + s.v[(0 : Reg)].toNat) % 4096) ∧
      (s.params.jumpOffsetReg = .vx →
        t.pc.toNat = (nnn.toNat + s.v[(Fin.ofNat 16 (nnn.toNat / 256) : Reg)].toNat) % 4096)

/-- R83, R157; in the execute phase `pc` is already the address after the CALL.
Rests on the decisions D4 (16 entries), D5 (the record) of spec/92_eei_decisions.md; log entries 16, 1. -/
def Obligations.CallPushesReturnAddress : Prop :=
  ∀ (nnn : Addr) (s : State),
    decode (0x2#4 ++ nnn) = .ok (.call nnn) ∧
    (s.sp.val < 16 →
      ∃ t, exec (.call nnn) s = .next t ∧ t = { s with stack := t.stack, sp := t.sp, pc := nnn } ∧
        t.sp.val = s.sp.val + 1 ∧
        ∀ k : Fin 16, t.stack[k] = if k.val = s.sp.val then s.pc else s.stack[k]) ∧
    (s.sp.val = 16 →
      exec (.call nnn) s =
        .next { s with fault := some ⟨.stackOverflow, s.pc - 2, 0x2#4 ++ nnn⟩, beep := false })

/-- R81, R158.
Rests on the decisions D4 (16 entries), D5 (the record) of spec/92_eei_decisions.md; log entries 16, 1. -/
def Obligations.ReturnPopsPc : Prop :=
  ∀ s : State,
    decode 0x00EE = .ok .ret ∧
    (0 < s.sp.val →
      ∃ t, exec .ret s = .next t ∧ t = { s with sp := t.sp, pc := t.pc } ∧ t.sp.val + 1 = s.sp.val ∧
        ∀ k : Fin 16, k.val = t.sp.val → t.pc = s.stack[k]) ∧
    (s.sp.val = 0 →
      exec .ret s = .next { s with fault := some ⟨.stackUnderflow, s.pc - 2, 0x00EE⟩, beep := false })

/-- R14, R81, R83, R89.
Rests on the decision D4 of spec/92_eei_decisions.md; log entry 16. -/
def Obligations.ReturnUndoesCall : Prop :=
  ∀ (nnn : Addr) (s t u : State), s.sp.val < 16 → exec (.call nnn) s = .next t → u.stack = t.stack → u.sp = t.sp →
    ∃ r, exec .ret u = .next r ∧ r.pc = s.pc ∧ r.sp = s.sp

/-- R84 to R87; in the execute phase `pc` is already the address after the instruction. -/
def Obligations.CompareSkips : Prop :=
  ∀ (x y : Reg) (nn : Byte) (s : State),
    decode (0x3#4 ++ BitVec.ofNat 4 x.val ++ nn) = .ok (.seImm x nn) ∧
    decode (0x4#4 ++ BitVec.ofNat 4 x.val ++ nn) = .ok (.sneImm x nn) ∧
    decode (0x5#4 ++ BitVec.ofNat 4 x.val ++ BitVec.ofNat 4 y.val ++ 0x0#4) = .ok (.seReg x y) ∧
    decode (0x9#4 ++ BitVec.ofNat 4 x.val ++ BitVec.ofNat 4 y.val ++ 0x0#4) = .ok (.sneReg x y) ∧
    exec (.seImm x nn) s = .next { s with pc := if s.v[x] = nn then s.pc + 2 else s.pc } ∧
    exec (.sneImm x nn) s = .next { s with pc := if s.v[x] ≠ nn then s.pc + 2 else s.pc } ∧
    exec (.seReg x y) s = .next { s with pc := if s.v[x] = s.v[y] then s.pc + 2 else s.pc } ∧
    exec (.sneReg x y) s = .next { s with pc := if s.v[x] ≠ s.v[y] then s.pc + 2 else s.pc }

/-- R89: "Conditional-skip opcodes advance the program counter by 4 total (not 2) when the condition holds, and by 2
when it does not."
Rests on the decisions D16 (the key number), D2 (the wrap) of spec/92_eei_decisions.md; log entries 22, 14. -/
def Obligations.SkipsAdvanceByFour : Prop :=
  ∀ (s : State) (i : Instr) (c : Bool) (x y : Reg) (nn : Byte), s.fault = none → decode (wordAtPc s) = .ok i →
    ((i = .seImm x nn ∧ c = decide (s.v[x] = nn)) ∨ (i = .sneImm x nn ∧ c = decide (s.v[x] ≠ nn)) ∨
      (i = .seReg x y ∧ c = decide (s.v[x] = s.v[y])) ∨ (i = .sneReg x y ∧ c = decide (s.v[x] ≠ s.v[y])) ∨
      (i = .skp x ∧ c = s.keys.getLsbD (s.v[x].toNat % 16)) ∨
      (i = .sknp x ∧ c = !s.keys.getLsbD (s.v[x].toNat % 16))) →
    ∃ t, step s = .next t ∧ t.pc.toNat = (s.pc.toNat + if c then 4 else 2) % 4096 ∧
      AgreeOutsideTimers { s with pc := t.pc } t

/-- R96, R98. -/
def Obligations.LoadsSetOneRegister : Prop :=
  ∀ (x y : Reg) (nn : Byte) (s : State),
    decode (0x6#4 ++ BitVec.ofNat 4 x.val ++ nn) = .ok (.ldImm x nn) ∧
    decode (0x8#4 ++ BitVec.ofNat 4 x.val ++ BitVec.ofNat 4 y.val ++ 0x0#4) = .ok (.ldReg x y) ∧
    (∃ t, exec (.ldImm x nn) s = .next t ∧ t = { s with v := t.v } ∧ ∀ r : Reg, t.v[r] = if r = x then nn else s.v[r]) ∧
    ∃ t, exec (.ldReg x y) s = .next t ∧ t = { s with v := t.v } ∧ ∀ r : Reg, t.v[r] = if r = x then s.v[y] else s.v[r]

/-- R97.
Rests on the decision D12 of spec/92_eei_decisions.md; log entry 17. -/
def Obligations.AddImmediateWrapsWithoutFlag : Prop :=
  ∀ (x : Reg) (nn : Byte) (s : State),
    decode (0x7#4 ++ BitVec.ofNat 4 x.val ++ nn) = .ok (.addImm x nn) ∧
    ∃ t, exec (.addImm x nn) s = .next t ∧ t = { s with v := t.v } ∧
      ∀ r : Reg, t.v[r].toNat = if r = x then (s.v[x].toNat + nn.toNat) % 256 else s.v[r].toNat

/-- R99, R100, R101.
Rests on the decision D11 of spec/92_eei_decisions.md; log entry 17. -/
def Obligations.LogicIsBitwiseWithoutFlag : Prop :=
  ∀ (x y : Reg) (s : State),
    decode (0x8#4 ++ BitVec.ofNat 4 x.val ++ BitVec.ofNat 4 y.val ++ 0x1#4) = .ok (.orReg x y) ∧
    decode (0x8#4 ++ BitVec.ofNat 4 x.val ++ BitVec.ofNat 4 y.val ++ 0x2#4) = .ok (.andReg x y) ∧
    decode (0x8#4 ++ BitVec.ofNat 4 x.val ++ BitVec.ofNat 4 y.val ++ 0x3#4) = .ok (.xorReg x y) ∧
    (∃ t, exec (.orReg x y) s = .next t ∧ t = { s with v := t.v } ∧ ∀ (r : Reg) (j : Nat),
      t.v[r].getLsbD j = if r = x then s.v[x].getLsbD j || s.v[y].getLsbD j else s.v[r].getLsbD j) ∧
    (∃ t, exec (.andReg x y) s = .next t ∧ t = { s with v := t.v } ∧ ∀ (r : Reg) (j : Nat),
      t.v[r].getLsbD j = if r = x then s.v[x].getLsbD j && s.v[y].getLsbD j else s.v[r].getLsbD j) ∧
    ∃ t, exec (.xorReg x y) s = .next t ∧ t = { s with v := t.v } ∧ ∀ (r : Reg) (j : Nat),
      t.v[r].getLsbD j = if r = x then s.v[x].getLsbD j ^^ s.v[y].getLsbD j else s.v[r].getLsbD j

/-- R102, R95.
Rests on the decisions D9, D10 of spec/92_eei_decisions.md; log entry 17. -/
def Obligations.AddSetsCarry : Prop :=
  ∀ (x y : Reg) (s : State),
    decode (0x8#4 ++ BitVec.ofNat 4 x.val ++ BitVec.ofNat 4 y.val ++ 0x4#4) = .ok (.addReg x y) ∧
    ∃ t, exec (.addReg x y) s = .next t ∧ t = { s with v := t.v } ∧ ∀ r : Reg, t.v[r].toNat =
      if r = 15 then (if s.v[x].toNat + s.v[y].toNat > 255 then 1 else 0)
      else if r = x then (s.v[x].toNat + s.v[y].toNat) % 256 else s.v[r].toNat

/-- R103, R105, R95.
Rests on the decisions D9, D10 of spec/92_eei_decisions.md; log entry 17. -/
def Obligations.SubtractionsSetNoBorrow : Prop :=
  ∀ (x y : Reg) (s : State),
    decode (0x8#4 ++ BitVec.ofNat 4 x.val ++ BitVec.ofNat 4 y.val ++ 0x5#4) = .ok (.sub x y) ∧
    decode (0x8#4 ++ BitVec.ofNat 4 x.val ++ BitVec.ofNat 4 y.val ++ 0x7#4) = .ok (.subn x y) ∧
    (∃ t, exec (.sub x y) s = .next t ∧ t = { s with v := t.v } ∧ ∀ r : Reg, t.v[r].toNat =
      if r = 15 then (if s.v[x].toNat ≥ s.v[y].toNat then 1 else 0)
      else if r = x then (s.v[x].toNat + 256 - s.v[y].toNat) % 256 else s.v[r].toNat) ∧
    ∃ t, exec (.subn x y) s = .next t ∧ t = { s with v := t.v } ∧ ∀ r : Reg, t.v[r].toNat =
      if r = 15 then (if s.v[y].toNat ≥ s.v[x].toNat then 1 else 0)
      else if r = x then (s.v[y].toNat + 256 - s.v[x].toNat) % 256 else s.v[r].toNat

/-- R104, R106, R95, with the parameter SHIFT_SOURCE of R7.
Rests on the decisions D8, D9 of spec/92_eei_decisions.md; log entries 10, 17, 26. -/
def Obligations.ShiftsCaptureTheBitOut : Prop :=
  ∀ (x y : Reg) (s : State),
    decode (0x8#4 ++ BitVec.ofNat 4 x.val ++ BitVec.ofNat 4 y.val ++ 0x6#4) = .ok (.shr x y) ∧
    decode (0x8#4 ++ BitVec.ofNat 4 x.val ++ BitVec.ofNat 4 y.val ++ 0xE#4) = .ok (.shl x y) ∧
    (∃ t, exec (.shr x y) s = .next t ∧ t = { s with v := t.v } ∧ ∀ r : Reg, t.v[r].toNat =
      if r = 15 then s.v[shiftSourceReg x y s].toNat % 2
      else if r = x then s.v[shiftSourceReg x y s].toNat / 2 else s.v[r].toNat) ∧
    ∃ t, exec (.shl x y) s = .next t ∧ t = { s with v := t.v } ∧ ∀ r : Reg, t.v[r].toNat =
      if r = 15 then s.v[shiftSourceReg x y s].toNat / 128
      else if r = x then 2 * s.v[shiftSourceReg x y s].toNat % 256 else s.v[r].toNat

/-- R107; `s.rnd` is this cycle's draw and is arbitrary here.
Rests on the decision D18 of spec/92_eei_decisions.md; log entry 3. -/
def Obligations.RandomIsMasked : Prop :=
  ∀ (x : Reg) (nn : Byte) (s : State),
    decode (0xC#4 ++ BitVec.ofNat 4 x.val ++ nn) = .ok (.rnd x nn) ∧
    ∃ t, exec (.rnd x nn) s = .next t ∧ t = { s with v := t.v } ∧
      ∀ (r : Reg) (j : Nat), t.v[r].getLsbD j = if r = x then s.rnd.getLsbD j && nn.getLsbD j else s.v[r].getLsbD j

/-- R116. -/
def Obligations.ClearScreenTurnsEveryCellOff : Prop :=
  ∀ s : State, decode 0x00E0 = .ok .cls ∧
    ∃ t, exec .cls s = .next t ∧ t = { s with disp := t.disp } ∧ ∀ (row : Fin 32) (col : Fin 64), t.disp[row][col] = false

/-- R117, R115.
Rests on the decisions D19, D9, D14, D2 of spec/92_eei_decisions.md; log entries 21, 17, 10. -/
def Obligations.DrawXorsSpriteAndSetsCollision : Prop :=
  ∀ (x y : Reg) (n : Height) (s : State),
    decode (0xD#4 ++ BitVec.ofNat 4 x.val ++ BitVec.ofNat 4 y.val ++ BitVec.ofNat 4 n.val) = .ok (.drw x y n) ∧
    ∃ t, exec (.drw x y n) s = .next t ∧ t = { s with v := t.v, disp := t.disp } ∧
      (∀ (row : Fin 32) (col : Fin 64), t.disp[row][col] = (s.disp[row][col] ^^ spritePixel x y n s row col)) ∧
      ((∃ (row : Fin 32) (col : Fin 64), spritePixel x y n s row col = true ∧ s.disp[row][col] = true) →
        t.v[(15 : Reg)] = 1) ∧
      ((∀ (row : Fin 32) (col : Fin 64), spritePixel x y n s row col = true → s.disp[row][col] = false) →
        t.v[(15 : Reg)] = 0) ∧
      ∀ r : Reg, r ≠ 15 → t.v[r] = s.v[r]

/-- R118 (a) and (b).
Rests on the decision D19 of spec/92_eei_decisions.md; log entry 21. -/
def Obligations.DrawStaysInRectangleAndCountsBits : Prop :=
  ∀ (x y : Reg) (n : Height) (s t : State), exec (.drw x y n) s = .next t →
    (∀ (row : Fin 32) (col : Fin 64),
      (row.val < s.v[y].toNat % 32 ∨ s.v[y].toNat % 32 + n.val ≤ row.val ∨ col.val < s.v[x].toNat % 64 ∨
        s.v[x].toNat % 64 + 8 ≤ col.val) → t.disp[row][col] = s.disp[row][col]) ∧
    (Finset.univ.filter fun p : Fin 32 × Fin 64 => t.disp[p.1][p.2] ≠ s.disp[p.1][p.2]).card =
      (Finset.univ.filter fun q : Fin 16 × Fin 8 =>
        q.1.val < n.val ∧ s.v[y].toNat % 32 + q.1.val ≤ 31 ∧ s.v[x].toNat % 64 + q.2.val ≤ 63 ∧
          (s.readByte (s.idx + BitVec.ofNat 12 q.1.val)).getLsbD (7 - q.2.val) = true).card

/-- R118 (c), the double-XOR property.
Rests on the decision D19 of spec/92_eei_decisions.md; log entry 21. -/
def Obligations.DrawTwiceRestoresDisplay : Prop :=
  ∀ (x y : Reg) (n : Height) (s t u w : State), x ≠ 15 → y ≠ 15 →
    exec (.drw x y n) s = .next t → u.disp = t.disp → u.idx = t.idx → u.mem = t.mem → u.params = t.params →
    u.v[x] = t.v[x] → u.v[y] = t.v[y] →
    exec (.drw x y n) u = .next w →
    w.disp = s.disp ∧
      (w.v[(15 : Reg)] = 1 ↔
        ∃ (row : Fin 32) (col : Fin 64), spritePixel x y n s row col = true ∧ s.disp[row][col] = false)

/-- R125, R126.
Rests on the decision D16 of spec/92_eei_decisions.md; log entry 22. -/
def Obligations.KeySkipsTestOneKey : Prop :=
  ∀ (x : Reg) (s : State),
    decode (0xE#4 ++ BitVec.ofNat 4 x.val ++ 0x9E#8) = .ok (.skp x) ∧
    decode (0xE#4 ++ BitVec.ofNat 4 x.val ++ 0xA1#8) = .ok (.sknp x) ∧
    exec (.skp x) s = .next { s with pc := if s.keys.getLsbD (s.v[x].toNat % 16) = true then s.pc + 2 else s.pc } ∧
    exec (.sknp x) s = .next { s with pc := if s.keys.getLsbD (s.v[x].toNat % 16) = true then s.pc else s.pc + 2 }

/-- R128, R7; the lowest key is the spec's choice D17.
Rests on the decision D17 of spec/92_eei_decisions.md; log entries 10, 20, 22, 26. -/
def Obligations.KeyReadTakesLowestKeyOrRepeats : Prop :=
  ∀ (x : Reg) (s : State),
    decode (0xF#4 ++ BitVec.ofNat 4 x.val ++ 0x0A#8) = .ok (.ldVxK x) ∧
    (s.keys = 0 → exec (.ldVxK x) s = .next { s with pc := s.pc - 2 }) ∧
    (s.keys ≠ 0 → ∃ (t : State) (k : Nat), exec (.ldVxK x) s = .next t ∧ t = { s with v := t.v } ∧
      (∀ r : Reg, t.v[r].toNat = if r = x then k else s.v[r].toNat) ∧ k < 16 ∧ s.keys.getLsbD k = true ∧
      (s.params.keyPick = .lowest → ∀ j < k, s.keys.getLsbD j = false) ∧
      (s.params.keyPick = .highest → ∀ j, k < j → s.keys.getLsbD j = false))

/-- R189, R128: a run that polls is not a stuck one: every cycle is enabled.
Rests on the decision D17 of spec/92_eei_decisions.md; log entry 22. -/
def Obligations.KeyWaitPollsWhileTimersRun : Prop :=
  ∀ (x : Reg) (draws : List Byte) (s : State), s.fault = none → decode (wordAtPc s) = .ok (.ldVxK x) →
    ∃ t, runCycles (draws.map fun b => (0, b)) s = .next t ∧
      t.v = s.v ∧ t.pc = s.pc ∧ t.idx = s.idx ∧ t.stack = s.stack ∧ t.sp = s.sp ∧ t.mem = s.mem ∧ t.disp = s.disp ∧
      t.params = s.params ∧ t.fault = none ∧ t.dt.toNat = s.dt.toNat - draws.length ∧
      t.st.toNat = s.st.toNat - draws.length ∧ beepCount (draws.map fun b => (0, b)) s ≤ 1

/-- R127, R129, R130, the execute phase; TimerWrittenIsTickedInItsCycle states the tick of the same cycle. -/
def Obligations.TimerMoves : Prop :=
  ∀ (x : Reg) (s : State),
    decode (0xF#4 ++ BitVec.ofNat 4 x.val ++ 0x07#8) = .ok (.ldVxDt x) ∧
    decode (0xF#4 ++ BitVec.ofNat 4 x.val ++ 0x15#8) = .ok (.ldDtVx x) ∧
    decode (0xF#4 ++ BitVec.ofNat 4 x.val ++ 0x18#8) = .ok (.ldStVx x) ∧
    (∃ t, exec (.ldVxDt x) s = .next t ∧ t = { s with v := t.v } ∧ ∀ r : Reg, t.v[r] = if r = x then s.dt else s.v[r]) ∧
    exec (.ldDtVx x) s = .next { s with dt := s.v[x] } ∧
    exec (.ldStVx x) s = .next { s with st := s.v[x] }

/-- R188, R190, R129, R130.
Rests on the decision D20 (the beep) of spec/92_eei_decisions.md; log entry 23. -/
def Obligations.TimerWrittenIsTickedInItsCycle : Prop :=
  ∀ (x : Reg) (s : State), s.fault = none →
    (decode (wordAtPc s) = .ok (.ldDtVx x) →
      ∃ t, step s = .next t ∧ t.dt.toNat = s.v[x].toNat - 1 ∧ t.st.toNat = s.st.toNat - 1 ∧ (t.beep = true ↔ s.st = 1)) ∧
    (decode (wordAtPc s) = .ok (.ldStVx x) →
      ∃ t, step s = .next t ∧ t.st.toNat = s.v[x].toNat - 1 ∧ t.dt.toNat = s.dt.toNat - 1 ∧ (t.beep = true ↔ s.v[x] = 1))

/-- R188, R167: `DT` counts executed instructions. -/
def Obligations.DelayTimerCountsCycles : Prop :=
  ∀ (ins : List (Keys × Byte)) (s t : State), runCycles ins s = .next t → t.fault = none →
    (∀ (pre post : List (Keys × Byte)) (u : State), ins = pre ++ post → post ≠ [] → runCycles pre s = .next u →
      NoDelayWrite u) →
    t.dt.toNat = s.dt.toNat - ins.length

/-- R140, R141, R142.
Rests on the decisions D12 (no flag), D15 (no mask), D1 (12 bits) of spec/92_eei_decisions.md; log entries 17, 22, 14.
-/
def Obligations.IndexIsLoadedAddedAndPointedAtGlyphs : Prop :=
  ∀ (x : Reg) (nnn : Addr) (s : State),
    decode (0xA#4 ++ nnn) = .ok (.ldI nnn) ∧
    decode (0xF#4 ++ BitVec.ofNat 4 x.val ++ 0x1E#8) = .ok (.addI x) ∧
    decode (0xF#4 ++ BitVec.ofNat 4 x.val ++ 0x29#8) = .ok (.ldF x) ∧
    exec (.ldI nnn) s = .next { s with idx := nnn } ∧
    (∃ t, exec (.addI x) s = .next t ∧ t = { s with idx := t.idx } ∧
      t.idx.toNat = (s.idx.toNat + s.v[x].toNat) % 4096) ∧
    ∃ t, exec (.ldF x) s = .next t ∧ t = { s with idx := t.idx } ∧ t.idx.toNat = 5 * s.v[x].toNat

/-- R143, R146, R36, R7. Under FONT_WRITE_POLICY = ignore R36 says that the store is dropped; dropping byte by byte,
the other bytes stored, is the model's reading (log entry 11). The fault clause is the latched next state of R156 and
R72: record, `pc` left advanced, no beep; that the faulting cycle itself is a next state is the model's form of it
(log entry 1).
Rests on the decisions D21 (the fault), D5 (the latch), D2 (the wrap), D14 (I stays) of spec/92_eei_decisions.md; log
entries 1, 10, 11, 14, 26. -/
def Obligations.BcdStoresThreeDigits : Prop :=
  ∀ (x : Reg) (s : State),
    decode (0xF#4 ++ BitVec.ofNat 4 x.val ++ 0x33#8) = .ok (.ldB x) ∧
    (¬ storeFaults s 3 →
      ∃ t, exec (.ldB x) s = .next t ∧ t = { s with mem := t.mem } ∧ ∀ a : Addr, (t.readByte a).toNat =
        if storeDropped s a then (s.readByte a).toNat
        else if a = s.idx then s.v[x].toNat / 100
        else if a = s.idx + 1 then s.v[x].toNat / 10 % 10
        else if a = s.idx + 2 then s.v[x].toNat % 10
        else (s.readByte a).toNat) ∧
    (storeFaults s 3 →
      exec (.ldB x) s = .next
        { s with fault := some ⟨.fontWrite, s.pc - 2, 0xF#4 ++ BitVec.ofNat 4 x.val ++ 0x33#8⟩, beep := false })

/-- R144, R146, R36, R7. Under FONT_WRITE_POLICY = ignore R36 says that the store is dropped; dropping byte by byte,
the other bytes stored, is the model's reading (log entry 11). Where LOADSTORE_INCREMENTS_I is set, that the sum I + X
+ 1 wraps and that a faulting store does not move I are the model's reading of D14 (log entry 13). The fault clause is
the latched next state of R156 and R72: record, `pc` left advanced, no beep; that the faulting cycle itself is a next
state is the model's form of it (log entry 1).
Rests on the decisions D21 (the fault), D5 (the latch), D2 (the wrap), D14 (I stays) of spec/92_eei_decisions.md; log
entries 1, 10, 11, 13, 14, 26. -/
def Obligations.BlockStoreWritesV0ToVx : Prop :=
  ∀ (x : Reg) (s : State),
    decode (0xF#4 ++ BitVec.ofNat 4 x.val ++ 0x55#8) = .ok (.storeRegs x) ∧
    (¬ storeFaults s (x.val + 1) →
      ∃ t, exec (.storeRegs x) s = .next t ∧ t = { s with mem := t.mem, idx := idxAfterBlock x s } ∧
        (∀ k : Reg, k ≤ x → t.readByte (s.idx + BitVec.ofNat 12 k.val) =
          if storeDropped s (s.idx + BitVec.ofNat 12 k.val) then s.readByte (s.idx + BitVec.ofNat 12 k.val)
          else s.v[k]) ∧
        ∀ a : Addr, (∀ k : Reg, k ≤ x → a ≠ s.idx + BitVec.ofNat 12 k.val) → t.readByte a = s.readByte a) ∧
    (storeFaults s (x.val + 1) →
      exec (.storeRegs x) s = .next
        { s with fault := some ⟨.fontWrite, s.pc - 2, 0xF#4 ++ BitVec.ofNat 4 x.val ++ 0x55#8⟩, beep := false })

/-- R145, R146, R7. Where LOADSTORE_INCREMENTS_I is set, that the sum I + X + 1 wraps is the model's reading of D14
(log entry 13).
Rests on the decisions D2 (the wrap), D14 (I stays) of spec/92_eei_decisions.md; log entries 10, 13, 14, 26. -/
def Obligations.BlockLoadReadsV0ToVx : Prop :=
  ∀ (x : Reg) (s : State),
    decode (0xF#4 ++ BitVec.ofNat 4 x.val ++ 0x65#8) = .ok (.loadRegs x) ∧
    ∃ t, exec (.loadRegs x) s = .next t ∧ t = { s with v := t.v, idx := idxAfterBlock x s } ∧
      ∀ r : Reg, t.v[r] = if r ≤ x then s.readByte (s.idx + BitVec.ofNat 12 r.val) else s.v[r]

/-- R145: the document's round-trip property. The premise that no byte is dropped is about FONT_WRITE_POLICY = ignore
(R36), where dropping byte by byte is the model's reading (log entry 11).
Rests on the decisions D14 (I stays), D2 (the wrap), D21 (no byte dropped) of spec/92_eei_decisions.md; log entries
10, 11, 14, 26. -/
def Obligations.BlockStoreLoadRoundTrip : Prop :=
  ∀ (x : Reg) (s t u : State), s.fault = none → exec (.storeRegs x) s = .next t → t.fault = none →
    (∀ k : Reg, k ≤ x → ¬ storeDropped s (s.idx + BitVec.ofNat 12 k.val)) → u.params = s.params → u.mem = t.mem →
    u.idx = s.idx → ∃ w, exec (.loadRegs x) u = .next w ∧ ∀ k : Reg, k ≤ x → w.v[k] = s.v[k]

/-- R40: if cycle `n` stores to the two bytes at the address cycle `n+1` fetches, cycle `n+1` executes the new bytes.
The premises that no byte is dropped are about FONT_WRITE_POLICY = ignore (R36), where dropping byte by byte is the
model's reading (log entry 11).
Rests on the decisions D2 (the wrap), D21 (no byte dropped) of spec/92_eei_decisions.md; log entries 11, 14, 26. -/
def Obligations.StoredBytesAreFetchedNext : Prop :=
  ∀ (x : Reg) (s t : State), s.fault = none → decode (wordAtPc s) = .ok (.storeRegs x) → 1 ≤ x.val → s.idx = s.pc + 2 →
    ¬ storeDropped s s.idx → ¬ storeDropped s (s.idx + 1) → step s = .next t → t.fault = none →
    wordAtPc t = s.v[(0 : Reg)] ++ s.v[(1 : Reg)]

/-- The placement of log entry 7 against R31, R33. -/
def Obligations.PlacedWordIsFetched : Prop :=
  ∀ (s : State) (w : Nat), w < 65536 →
    wordAtPc (s.withFetchWord 16 w) = BitVec.ofNat 16 w ∧ (s.withFetchWord 16 w).fault = none ∧
      s.withFetchWord 16 w = { s with mem := (s.withFetchWord 16 w).mem, fault := none } ∧
      ∀ a : Addr, a ≠ s.pc → a ≠ s.pc + 1 → (s.withFetchWord 16 w).readByte a = s.readByte a

/-- R24, R17, R7.
Rests on the decisions D25 (the font), D5 (the latch), D8, D13, D14, D17, D21 (the defaults) of
spec/92_eei_decisions.md; log entries 9, 1, 10, 26. -/
def Obligations.ResetValues : Prop :=
  (∀ p : Config.Params,
    (∀ r : Reg, (State.resetWith p).v[r] = 0) ∧ (State.resetWith p).pc = 0x200 ∧ (State.resetWith p).idx = 0 ∧
      (State.resetWith p).sp = 0 ∧ (∀ k : Fin 16, (State.resetWith p).stack[k] = 0) ∧ (State.resetWith p).dt = 0 ∧
      (State.resetWith p).st = 0 ∧ (∀ (row : Fin 32) (col : Fin 64), (State.resetWith p).disp[row][col] = false) ∧
      (State.resetWith p).fault = none ∧ (State.resetWith p).keys = 0 ∧ (State.resetWith p).params = p ∧
      ∀ a : Addr, (State.resetWith p).readByte a = if h : a.toNat < 80 then p.font[a.toNat]'h else 0) ∧
    State.reset = State.resetWith State.reset.params ∧ State.reset.params.fontWritePolicy = .fault ∧
    State.reset.params.shiftSource = .vx ∧ State.reset.params.keyPick = .lowest ∧
    State.reset.params.loadStoreIncrementsI = false ∧ State.reset.params.jumpOffsetReg = .v0 ∧
    (List.range 80).map (fun k => State.reset.readByte (BitVec.ofNat 12 k)) =
      [0xF0, 0x90, 0x90, 0x90, 0xF0] ++ [0x20, 0x60, 0x20, 0x20, 0x70] ++ [0xF0, 0x10, 0xF0, 0x80, 0xF0] ++
      [0xF0, 0x10, 0xF0, 0x10, 0xF0] ++ [0x90, 0x90, 0xF0, 0x10, 0x10] ++ [0xF0, 0x80, 0xF0, 0x10, 0xF0] ++
      [0xF0, 0x80, 0xF0, 0x90, 0xF0] ++ [0xF0, 0x10, 0x20, 0x40, 0x40] ++ [0xF0, 0x90, 0xF0, 0x90, 0xF0] ++
      [0xF0, 0x90, 0xF0, 0x10, 0xF0] ++ [0xF0, 0x90, 0xF0, 0x90, 0x90] ++ [0xE0, 0x90, 0xE0, 0x90, 0xE0] ++
      [0xF0, 0x80, 0x80, 0x80, 0xF0] ++ [0xE0, 0x90, 0x90, 0x90, 0xE0] ++ [0xF0, 0x80, 0xF0, 0x80, 0xF0] ++
      [0xF0, 0x80, 0xF0, 0x80, 0x80]

/-- R165, R180; that the input ports stay is the model's choice (log entry 6).
Rests on the decisions D5, D23 of spec/92_eei_decisions.md; log entries 1, 6, 26. -/
def Obligations.OnlyResetLeavesTheFaultedState : Prop :=
  (∀ s : State, hostStep .reset s =
    .next ({ State.resetWith s.params with keys := s.keys, rnd := s.rnd, draws := s.draws }, .done)) ∧
  ∀ (a : HostAction) (s t : State) (r : HostReply), s.fault ≠ none → hostStep a s = .next (t, r) → t.fault = none →
    a = .reset

/-- R182, R183; the boot mark and the refusal are the model's form of decision D23 (log entry 5).
Rests on the decision D23 of spec/92_eei_decisions.md; log entry 5. -/
def Obligations.RomLoadDepositsTheImage : Prop :=
  ∀ (bytes : List Byte) (s : State),
    (s.boot = .fresh → bytes.length ≤ 3584 →
      ∃ t, hostStep (.romLoad bytes) s = .next (t, .done) ∧ t = { s with mem := t.mem, boot := .loaded } ∧
        (∀ (k : Nat) (h : k < bytes.length), t.readByte (BitVec.ofNat 12 (0x200 + k)) = bytes[k]) ∧
        ∀ a : Addr, (a.toNat < 0x200 ∨ 0x200 + bytes.length ≤ a.toNat) → t.readByte a = s.readByte a) ∧
    (s.boot = .fresh → 3584 < bytes.length → hostStep (.romLoad bytes) s = .next (s, .loadError)) ∧
    (s.boot ≠ .fresh → hostStep (.romLoad bytes) s = .refused .romLoadNotAllowed)

/-- R195.
Rests on the decisions D26, D20 of spec/92_eei_decisions.md; log entries 24, 23. -/
def Obligations.EndedRunStaysEnded : Prop :=
  ∀ (ins : List (Keys × Byte)) (s : State), s.ended →
    ∃ t, runCycles ins s = .next t ∧ t.ended ∧ t.v = s.v ∧ t.pc = s.pc ∧ t.idx = s.idx ∧ t.stack = s.stack ∧
      t.sp = s.sp ∧ t.mem = s.mem ∧ t.disp = s.disp ∧ t.params = s.params ∧ t.dt.toNat = s.dt.toNat - ins.length ∧
      t.st.toNat = s.st.toNat - ins.length ∧ beepCount ins s ≤ 1

/-- The first half of the induction for StepKeepsInvariant. The font clause is R17 with R24; that memory is in
canonical form is the model's own representation (log entry 8), and that the beep output of a cycle is a field of the
state is the model's own too (log entry 2).
Rests on the decision D25 (the font) of spec/92_eei_decisions.md; log entries 2, 8, 9, 26. -/
def Obligations.InvariantHoldsAtReset : Prop :=
  (∀ p : Config.Params, (State.resetWith p).Inv) ∧ State.reset.Inv

/-- The font clause is R32 (the font block is "immutable") with R36 and R7, silence is R72; that memory is in
canonical form is the model's own representation (log entry 8), and that the beep output of a cycle is a field of the
state is the model's own too (log entry 2).
Rests on the decisions D21, D5 of spec/92_eei_decisions.md; log entries 1, 2, 8, 10, 26. -/
def Obligations.StepKeepsInvariant : Prop :=
  ∀ s t : State, s.Inv → step s = .next t → t.Inv

/-- R187, R182: the host's load cannot touch the font block; R72, R180. The rest is the model's: that memory is in
canonical form is the model's own representation (log entry 8), and that the beep output of a cycle is a field of the
state is the model's own too (log entry 2).
Rests on the decisions D21, D5, D23 of spec/92_eei_decisions.md; log entries 1, 2, 5, 8, 10, 26. -/
def Obligations.HostRunKeepsInvariant : Prop :=
  ∀ (as : List HostAction) (s t : State), s.Inv → hostRun as s = .next t → t.Inv

/-- The write half of R26, with R37, R13, R14, R18, R19, R146.
Rests on the decisions D12, D14 of spec/92_eei_decisions.md; log entries 10, 17, 26. -/
def Obligations.WritesFollowAccessMatrix : Prop :=
  ∀ (i : Instr) (s t : State), exec i s = .next t → ∀ c : Component, c ∉ writes s.params i → c.same s t

/-- R11: exactly six instructions write VF as a side effect.
Rests on the decisions D11, D12 of spec/92_eei_decisions.md; log entry 17. -/
def Obligations.OnlyNamedRegistersAreWritten : Prop :=
  ∀ (i : Instr) (s t : State) (r : Reg), exec i s = .next t → writesReg i r = false → t.v[r] = s.v[r]

/-- R19, R22, R16, the read half of R26 for these three. -/
def Obligations.InputsReachOnlyTheirReaders : Prop :=
  ∀ (i : Instr) (s t : State), exec i s = .next t →
    (∀ k : Keys, readsKeys i = false → exec i { s with keys := k } = .next { t with keys := k }) ∧
    (∀ b : Byte, (∀ x nn, i ≠ .rnd x nn) → exec i { s with rnd := b } = .next { t with rnd := b }) ∧
    (∀ b : Byte, (∀ x, i ≠ .ldStVx x) → exec i { s with st := b } = .next { t with st := b })

/-- R7, R36: the parameter FONT_WRITE_POLICY; dropping byte by byte is the model's reading (log entry 11). The fault
clause is the latched next state of R156 and R72: record, `pc` left advanced, no beep; that it is a next state is the
model's form of it (log entry 1).
Rests on the decisions D21, D2, D5 (the latch) of spec/92_eei_decisions.md; log entries 1, 10, 11, 14. -/
def Obligations.FontWritePolicies : Prop :=
  ∀ (w : InsnWord) (bs : List Byte) (s : State) (a : Addr), bs.length ≤ 16 →
    (s.storeAtI .write w bs id).readByte a = bs.getD (a - s.idx).toNat (s.readByte a) ∧
    (s.storeAtI .ignore w bs id).readByte a =
      (if a.toNat ≤ 0x04F then s.readByte a else bs.getD (a - s.idx).toNat (s.readByte a)) ∧
    ((∃ k < bs.length, (s.idx.toNat + k) % 4096 ≤ 0x04F) →
      s.storeAtI .fault w bs id = { s with fault := some ⟨.fontWrite, s.pc - 2, w⟩, beep := false }) ∧
    ((∀ k < bs.length, 0x04F < (s.idx.toNat + k) % 4096) →
      (s.storeAtI .fault w bs id).readByte a = bs.getD (a - s.idx).toNat (s.readByte a))
end

