-- ==== Sys2Proof/Laws/State.lean ====
section
/-!
SUPPORT. The fields of a state after each update: one lemma per field per update, so that no proof unfolds a record
update.
-/

namespace Sys2Proof.Machine

/-! ## setReg -/

@[simp] theorem State.setReg_v (s : State) (r : Reg) (b : Byte) : (s.setReg r b).v = s.v.set r b := rfl
@[simp] theorem State.setReg_pc (s : State) (r : Reg) (b : Byte) : (s.setReg r b).pc = s.pc := rfl
@[simp] theorem State.setReg_idx (s : State) (r : Reg) (b : Byte) : (s.setReg r b).idx = s.idx := rfl
@[simp] theorem State.setReg_stack (s : State) (r : Reg) (b : Byte) : (s.setReg r b).stack = s.stack := rfl
@[simp] theorem State.setReg_sp (s : State) (r : Reg) (b : Byte) : (s.setReg r b).sp = s.sp := rfl
@[simp] theorem State.setReg_dt (s : State) (r : Reg) (b : Byte) : (s.setReg r b).dt = s.dt := rfl
@[simp] theorem State.setReg_st (s : State) (r : Reg) (b : Byte) : (s.setReg r b).st = s.st := rfl
@[simp] theorem State.setReg_mem (s : State) (r : Reg) (b : Byte) : (s.setReg r b).mem = s.mem := rfl
@[simp] theorem State.setReg_disp (s : State) (r : Reg) (b : Byte) : (s.setReg r b).disp = s.disp := rfl
@[simp] theorem State.setReg_keys (s : State) (r : Reg) (b : Byte) : (s.setReg r b).keys = s.keys := rfl
@[simp] theorem State.setReg_fault (s : State) (r : Reg) (b : Byte) : (s.setReg r b).fault = s.fault := rfl
@[simp] theorem State.setReg_beep (s : State) (r : Reg) (b : Byte) : (s.setReg r b).beep = s.beep := rfl
@[simp] theorem State.setReg_rnd (s : State) (r : Reg) (b : Byte) : (s.setReg r b).rnd = s.rnd := rfl
@[simp] theorem State.setReg_draws (s : State) (r : Reg) (b : Byte) : (s.setReg r b).draws = s.draws := rfl
@[simp] theorem State.setReg_boot (s : State) (r : Reg) (b : Byte) : (s.setReg r b).boot = s.boot := rfl
@[simp] theorem State.setReg_params (s : State) (r : Reg) (b : Byte) : (s.setReg r b).params = s.params := rfl

/-! ## setPc -/

@[simp] theorem State.setPc_v (s : State) (a : Addr) : (s.setPc a).v = s.v := rfl
@[simp] theorem State.setPc_pc (s : State) (a : Addr) : (s.setPc a).pc = a := rfl
@[simp] theorem State.setPc_idx (s : State) (a : Addr) : (s.setPc a).idx = s.idx := rfl
@[simp] theorem State.setPc_stack (s : State) (a : Addr) : (s.setPc a).stack = s.stack := rfl
@[simp] theorem State.setPc_sp (s : State) (a : Addr) : (s.setPc a).sp = s.sp := rfl
@[simp] theorem State.setPc_dt (s : State) (a : Addr) : (s.setPc a).dt = s.dt := rfl
@[simp] theorem State.setPc_st (s : State) (a : Addr) : (s.setPc a).st = s.st := rfl
@[simp] theorem State.setPc_mem (s : State) (a : Addr) : (s.setPc a).mem = s.mem := rfl
@[simp] theorem State.setPc_disp (s : State) (a : Addr) : (s.setPc a).disp = s.disp := rfl
@[simp] theorem State.setPc_keys (s : State) (a : Addr) : (s.setPc a).keys = s.keys := rfl
@[simp] theorem State.setPc_fault (s : State) (a : Addr) : (s.setPc a).fault = s.fault := rfl
@[simp] theorem State.setPc_beep (s : State) (a : Addr) : (s.setPc a).beep = s.beep := rfl
@[simp] theorem State.setPc_rnd (s : State) (a : Addr) : (s.setPc a).rnd = s.rnd := rfl
@[simp] theorem State.setPc_draws (s : State) (a : Addr) : (s.setPc a).draws = s.draws := rfl
@[simp] theorem State.setPc_boot (s : State) (a : Addr) : (s.setPc a).boot = s.boot := rfl
@[simp] theorem State.setPc_params (s : State) (a : Addr) : (s.setPc a).params = s.params := rfl

/-! ## setIdx -/

@[simp] theorem State.setIdx_v (s : State) (a : Addr) : (s.setIdx a).v = s.v := rfl
@[simp] theorem State.setIdx_pc (s : State) (a : Addr) : (s.setIdx a).pc = s.pc := rfl
@[simp] theorem State.setIdx_idx (s : State) (a : Addr) : (s.setIdx a).idx = a := rfl
@[simp] theorem State.setIdx_stack (s : State) (a : Addr) : (s.setIdx a).stack = s.stack := rfl
@[simp] theorem State.setIdx_sp (s : State) (a : Addr) : (s.setIdx a).sp = s.sp := rfl
@[simp] theorem State.setIdx_dt (s : State) (a : Addr) : (s.setIdx a).dt = s.dt := rfl
@[simp] theorem State.setIdx_st (s : State) (a : Addr) : (s.setIdx a).st = s.st := rfl
@[simp] theorem State.setIdx_mem (s : State) (a : Addr) : (s.setIdx a).mem = s.mem := rfl
@[simp] theorem State.setIdx_disp (s : State) (a : Addr) : (s.setIdx a).disp = s.disp := rfl
@[simp] theorem State.setIdx_keys (s : State) (a : Addr) : (s.setIdx a).keys = s.keys := rfl
@[simp] theorem State.setIdx_fault (s : State) (a : Addr) : (s.setIdx a).fault = s.fault := rfl
@[simp] theorem State.setIdx_beep (s : State) (a : Addr) : (s.setIdx a).beep = s.beep := rfl
@[simp] theorem State.setIdx_rnd (s : State) (a : Addr) : (s.setIdx a).rnd = s.rnd := rfl
@[simp] theorem State.setIdx_draws (s : State) (a : Addr) : (s.setIdx a).draws = s.draws := rfl
@[simp] theorem State.setIdx_boot (s : State) (a : Addr) : (s.setIdx a).boot = s.boot := rfl
@[simp] theorem State.setIdx_params (s : State) (a : Addr) : (s.setIdx a).params = s.params := rfl

/-! ## setDt -/

@[simp] theorem State.setDt_v (s : State) (b : Byte) : (s.setDt b).v = s.v := rfl
@[simp] theorem State.setDt_pc (s : State) (b : Byte) : (s.setDt b).pc = s.pc := rfl
@[simp] theorem State.setDt_idx (s : State) (b : Byte) : (s.setDt b).idx = s.idx := rfl
@[simp] theorem State.setDt_stack (s : State) (b : Byte) : (s.setDt b).stack = s.stack := rfl
@[simp] theorem State.setDt_sp (s : State) (b : Byte) : (s.setDt b).sp = s.sp := rfl
@[simp] theorem State.setDt_dt (s : State) (b : Byte) : (s.setDt b).dt = b := rfl
@[simp] theorem State.setDt_st (s : State) (b : Byte) : (s.setDt b).st = s.st := rfl
@[simp] theorem State.setDt_mem (s : State) (b : Byte) : (s.setDt b).mem = s.mem := rfl
@[simp] theorem State.setDt_disp (s : State) (b : Byte) : (s.setDt b).disp = s.disp := rfl
@[simp] theorem State.setDt_keys (s : State) (b : Byte) : (s.setDt b).keys = s.keys := rfl
@[simp] theorem State.setDt_fault (s : State) (b : Byte) : (s.setDt b).fault = s.fault := rfl
@[simp] theorem State.setDt_beep (s : State) (b : Byte) : (s.setDt b).beep = s.beep := rfl
@[simp] theorem State.setDt_rnd (s : State) (b : Byte) : (s.setDt b).rnd = s.rnd := rfl
@[simp] theorem State.setDt_draws (s : State) (b : Byte) : (s.setDt b).draws = s.draws := rfl
@[simp] theorem State.setDt_boot (s : State) (b : Byte) : (s.setDt b).boot = s.boot := rfl
@[simp] theorem State.setDt_params (s : State) (b : Byte) : (s.setDt b).params = s.params := rfl

/-! ## setSt -/

@[simp] theorem State.setSt_v (s : State) (b : Byte) : (s.setSt b).v = s.v := rfl
@[simp] theorem State.setSt_pc (s : State) (b : Byte) : (s.setSt b).pc = s.pc := rfl
@[simp] theorem State.setSt_idx (s : State) (b : Byte) : (s.setSt b).idx = s.idx := rfl
@[simp] theorem State.setSt_stack (s : State) (b : Byte) : (s.setSt b).stack = s.stack := rfl
@[simp] theorem State.setSt_sp (s : State) (b : Byte) : (s.setSt b).sp = s.sp := rfl
@[simp] theorem State.setSt_dt (s : State) (b : Byte) : (s.setSt b).dt = s.dt := rfl
@[simp] theorem State.setSt_st (s : State) (b : Byte) : (s.setSt b).st = b := rfl
@[simp] theorem State.setSt_mem (s : State) (b : Byte) : (s.setSt b).mem = s.mem := rfl
@[simp] theorem State.setSt_disp (s : State) (b : Byte) : (s.setSt b).disp = s.disp := rfl
@[simp] theorem State.setSt_keys (s : State) (b : Byte) : (s.setSt b).keys = s.keys := rfl
@[simp] theorem State.setSt_fault (s : State) (b : Byte) : (s.setSt b).fault = s.fault := rfl
@[simp] theorem State.setSt_beep (s : State) (b : Byte) : (s.setSt b).beep = s.beep := rfl
@[simp] theorem State.setSt_rnd (s : State) (b : Byte) : (s.setSt b).rnd = s.rnd := rfl
@[simp] theorem State.setSt_draws (s : State) (b : Byte) : (s.setSt b).draws = s.draws := rfl
@[simp] theorem State.setSt_boot (s : State) (b : Byte) : (s.setSt b).boot = s.boot := rfl
@[simp] theorem State.setSt_params (s : State) (b : Byte) : (s.setSt b).params = s.params := rfl

/-! ## setBeep -/

@[simp] theorem State.setBeep_v (s : State) (c : Bool) : (s.setBeep c).v = s.v := rfl
@[simp] theorem State.setBeep_pc (s : State) (c : Bool) : (s.setBeep c).pc = s.pc := rfl
@[simp] theorem State.setBeep_idx (s : State) (c : Bool) : (s.setBeep c).idx = s.idx := rfl
@[simp] theorem State.setBeep_stack (s : State) (c : Bool) : (s.setBeep c).stack = s.stack := rfl
@[simp] theorem State.setBeep_sp (s : State) (c : Bool) : (s.setBeep c).sp = s.sp := rfl
@[simp] theorem State.setBeep_dt (s : State) (c : Bool) : (s.setBeep c).dt = s.dt := rfl
@[simp] theorem State.setBeep_st (s : State) (c : Bool) : (s.setBeep c).st = s.st := rfl
@[simp] theorem State.setBeep_mem (s : State) (c : Bool) : (s.setBeep c).mem = s.mem := rfl
@[simp] theorem State.setBeep_disp (s : State) (c : Bool) : (s.setBeep c).disp = s.disp := rfl
@[simp] theorem State.setBeep_keys (s : State) (c : Bool) : (s.setBeep c).keys = s.keys := rfl
@[simp] theorem State.setBeep_fault (s : State) (c : Bool) : (s.setBeep c).fault = s.fault := rfl
@[simp] theorem State.setBeep_beep (s : State) (c : Bool) : (s.setBeep c).beep = c := rfl
@[simp] theorem State.setBeep_rnd (s : State) (c : Bool) : (s.setBeep c).rnd = s.rnd := rfl
@[simp] theorem State.setBeep_draws (s : State) (c : Bool) : (s.setBeep c).draws = s.draws := rfl
@[simp] theorem State.setBeep_boot (s : State) (c : Bool) : (s.setBeep c).boot = s.boot := rfl
@[simp] theorem State.setBeep_params (s : State) (c : Bool) : (s.setBeep c).params = s.params := rfl

/-! ## setDisp -/

@[simp] theorem State.setDisp_v (s : State) (d : Display) : (s.setDisp d).v = s.v := rfl
@[simp] theorem State.setDisp_pc (s : State) (d : Display) : (s.setDisp d).pc = s.pc := rfl
@[simp] theorem State.setDisp_idx (s : State) (d : Display) : (s.setDisp d).idx = s.idx := rfl
@[simp] theorem State.setDisp_stack (s : State) (d : Display) : (s.setDisp d).stack = s.stack := rfl
@[simp] theorem State.setDisp_sp (s : State) (d : Display) : (s.setDisp d).sp = s.sp := rfl
@[simp] theorem State.setDisp_dt (s : State) (d : Display) : (s.setDisp d).dt = s.dt := rfl
@[simp] theorem State.setDisp_st (s : State) (d : Display) : (s.setDisp d).st = s.st := rfl
@[simp] theorem State.setDisp_mem (s : State) (d : Display) : (s.setDisp d).mem = s.mem := rfl
@[simp] theorem State.setDisp_disp (s : State) (d : Display) : (s.setDisp d).disp = d := rfl
@[simp] theorem State.setDisp_keys (s : State) (d : Display) : (s.setDisp d).keys = s.keys := rfl
@[simp] theorem State.setDisp_fault (s : State) (d : Display) : (s.setDisp d).fault = s.fault := rfl
@[simp] theorem State.setDisp_beep (s : State) (d : Display) : (s.setDisp d).beep = s.beep := rfl
@[simp] theorem State.setDisp_rnd (s : State) (d : Display) : (s.setDisp d).rnd = s.rnd := rfl
@[simp] theorem State.setDisp_draws (s : State) (d : Display) : (s.setDisp d).draws = s.draws := rfl
@[simp] theorem State.setDisp_boot (s : State) (d : Display) : (s.setDisp d).boot = s.boot := rfl
@[simp] theorem State.setDisp_params (s : State) (d : Display) : (s.setDisp d).params = s.params := rfl

/-! ## putByte -/

@[simp] theorem State.putByte_v (s : State) (a : Addr) (b : Byte) : (s.putByte a b).v = s.v := rfl
@[simp] theorem State.putByte_pc (s : State) (a : Addr) (b : Byte) : (s.putByte a b).pc = s.pc := rfl
@[simp] theorem State.putByte_idx (s : State) (a : Addr) (b : Byte) : (s.putByte a b).idx = s.idx := rfl
@[simp] theorem State.putByte_stack (s : State) (a : Addr) (b : Byte) : (s.putByte a b).stack = s.stack := rfl
@[simp] theorem State.putByte_sp (s : State) (a : Addr) (b : Byte) : (s.putByte a b).sp = s.sp := rfl
@[simp] theorem State.putByte_dt (s : State) (a : Addr) (b : Byte) : (s.putByte a b).dt = s.dt := rfl
@[simp] theorem State.putByte_st (s : State) (a : Addr) (b : Byte) : (s.putByte a b).st = s.st := rfl
@[simp] theorem State.putByte_mem (s : State) (a : Addr) (b : Byte) : (s.putByte a b).mem = Memory.write s.params.font s.mem a.toNat b := rfl
@[simp] theorem State.putByte_disp (s : State) (a : Addr) (b : Byte) : (s.putByte a b).disp = s.disp := rfl
@[simp] theorem State.putByte_keys (s : State) (a : Addr) (b : Byte) : (s.putByte a b).keys = s.keys := rfl
@[simp] theorem State.putByte_fault (s : State) (a : Addr) (b : Byte) : (s.putByte a b).fault = s.fault := rfl
@[simp] theorem State.putByte_beep (s : State) (a : Addr) (b : Byte) : (s.putByte a b).beep = s.beep := rfl
@[simp] theorem State.putByte_rnd (s : State) (a : Addr) (b : Byte) : (s.putByte a b).rnd = s.rnd := rfl
@[simp] theorem State.putByte_draws (s : State) (a : Addr) (b : Byte) : (s.putByte a b).draws = s.draws := rfl
@[simp] theorem State.putByte_boot (s : State) (a : Addr) (b : Byte) : (s.putByte a b).boot = s.boot := rfl
@[simp] theorem State.putByte_params (s : State) (a : Addr) (b : Byte) : (s.putByte a b).params = s.params := rfl

/-! ## raise -/

@[simp] theorem State.raise_v (s : State) (k : FaultKind) (w : InsnWord) : (s.raise k w).v = s.v := rfl
@[simp] theorem State.raise_pc (s : State) (k : FaultKind) (w : InsnWord) : (s.raise k w).pc = s.pc := rfl
@[simp] theorem State.raise_idx (s : State) (k : FaultKind) (w : InsnWord) : (s.raise k w).idx = s.idx := rfl
@[simp] theorem State.raise_stack (s : State) (k : FaultKind) (w : InsnWord) : (s.raise k w).stack = s.stack := rfl
@[simp] theorem State.raise_sp (s : State) (k : FaultKind) (w : InsnWord) : (s.raise k w).sp = s.sp := rfl
@[simp] theorem State.raise_dt (s : State) (k : FaultKind) (w : InsnWord) : (s.raise k w).dt = s.dt := rfl
@[simp] theorem State.raise_st (s : State) (k : FaultKind) (w : InsnWord) : (s.raise k w).st = s.st := rfl
@[simp] theorem State.raise_mem (s : State) (k : FaultKind) (w : InsnWord) : (s.raise k w).mem = s.mem := rfl
@[simp] theorem State.raise_disp (s : State) (k : FaultKind) (w : InsnWord) : (s.raise k w).disp = s.disp := rfl
@[simp] theorem State.raise_keys (s : State) (k : FaultKind) (w : InsnWord) : (s.raise k w).keys = s.keys := rfl
@[simp] theorem State.raise_fault (s : State) (k : FaultKind) (w : InsnWord) : (s.raise k w).fault = some ⟨k, s.pc - Config.insnBytes, w⟩ := rfl
@[simp] theorem State.raise_beep (s : State) (k : FaultKind) (w : InsnWord) : (s.raise k w).beep = false := rfl
@[simp] theorem State.raise_rnd (s : State) (k : FaultKind) (w : InsnWord) : (s.raise k w).rnd = s.rnd := rfl
@[simp] theorem State.raise_draws (s : State) (k : FaultKind) (w : InsnWord) : (s.raise k w).draws = s.draws := rfl
@[simp] theorem State.raise_boot (s : State) (k : FaultKind) (w : InsnWord) : (s.raise k w).boot = s.boot := rfl
@[simp] theorem State.raise_params (s : State) (k : FaultKind) (w : InsnWord) : (s.raise k w).params = s.params := rfl

/-! ## nextDraw -/

@[simp] theorem State.nextDraw_v (s : State) : s.nextDraw.v = s.v := rfl
@[simp] theorem State.nextDraw_pc (s : State) : s.nextDraw.pc = s.pc := rfl
@[simp] theorem State.nextDraw_idx (s : State) : s.nextDraw.idx = s.idx := rfl
@[simp] theorem State.nextDraw_stack (s : State) : s.nextDraw.stack = s.stack := rfl
@[simp] theorem State.nextDraw_sp (s : State) : s.nextDraw.sp = s.sp := rfl
@[simp] theorem State.nextDraw_dt (s : State) : s.nextDraw.dt = s.dt := rfl
@[simp] theorem State.nextDraw_st (s : State) : s.nextDraw.st = s.st := rfl
@[simp] theorem State.nextDraw_mem (s : State) : s.nextDraw.mem = s.mem := rfl
@[simp] theorem State.nextDraw_disp (s : State) : s.nextDraw.disp = s.disp := rfl
@[simp] theorem State.nextDraw_keys (s : State) : s.nextDraw.keys = s.keys := rfl
@[simp] theorem State.nextDraw_fault (s : State) : s.nextDraw.fault = s.fault := rfl
@[simp] theorem State.nextDraw_beep (s : State) : s.nextDraw.beep = s.beep := rfl
@[simp] theorem State.nextDraw_rnd (s : State) : s.nextDraw.rnd = Config.rndDraw (s.draws + 1) := rfl
@[simp] theorem State.nextDraw_draws (s : State) : s.nextDraw.draws = s.draws + 1 := rfl
@[simp] theorem State.nextDraw_boot (s : State) : s.nextDraw.boot = s.boot := rfl
@[simp] theorem State.nextDraw_params (s : State) : s.nextDraw.params = s.params := rfl

/-! ## markRunning -/

@[simp] theorem State.markRunning_v (s : State) : s.markRunning.v = s.v := rfl
@[simp] theorem State.markRunning_pc (s : State) : s.markRunning.pc = s.pc := rfl
@[simp] theorem State.markRunning_idx (s : State) : s.markRunning.idx = s.idx := rfl
@[simp] theorem State.markRunning_stack (s : State) : s.markRunning.stack = s.stack := rfl
@[simp] theorem State.markRunning_sp (s : State) : s.markRunning.sp = s.sp := rfl
@[simp] theorem State.markRunning_dt (s : State) : s.markRunning.dt = s.dt := rfl
@[simp] theorem State.markRunning_st (s : State) : s.markRunning.st = s.st := rfl
@[simp] theorem State.markRunning_mem (s : State) : s.markRunning.mem = s.mem := rfl
@[simp] theorem State.markRunning_disp (s : State) : s.markRunning.disp = s.disp := rfl
@[simp] theorem State.markRunning_keys (s : State) : s.markRunning.keys = s.keys := rfl
@[simp] theorem State.markRunning_fault (s : State) : s.markRunning.fault = s.fault := rfl
@[simp] theorem State.markRunning_beep (s : State) : s.markRunning.beep = s.beep := rfl
@[simp] theorem State.markRunning_rnd (s : State) : s.markRunning.rnd = s.rnd := rfl
@[simp] theorem State.markRunning_draws (s : State) : s.markRunning.draws = s.draws := rfl
@[simp] theorem State.markRunning_boot (s : State) : s.markRunning.boot = .running := rfl
@[simp] theorem State.markRunning_params (s : State) : s.markRunning.params = s.params := rfl

/-! ## Reading a register after a write -/

theorem State.getReg_setReg (s : State) (r r' : Reg) (b : Byte) :
    (s.setReg r b).getReg r' = if r = r' then b else s.getReg r' := by
  simp only [State.getReg, State.setReg, Fin.getElem_fin, Vector.getElem_set, Fin.ext_iff]

@[simp] theorem State.getReg_setReg_self (s : State) (r : Reg) (b : Byte) : (s.setReg r b).getReg r = b := by
  simp [State.getReg_setReg]

theorem State.getReg_setReg_of_ne (s : State) {r r' : Reg} (b : Byte) (h : r' ≠ r) :
    (s.setReg r b).getReg r' = s.getReg r' := by
  simp [State.getReg_setReg, h.symm]

theorem State.getReg_congr {s t : State} (h : s.v = t.v) (r : Reg) : s.getReg r = t.getReg r := by
  simp [State.getReg, h]

/-- Two register files that agree on every register are equal. -/
theorem regs_ext {v v' : Vector Byte Config.nRegs} (h : ∀ r : Reg, v[r] = v'[r]) : v = v' :=
  Vector.ext fun i hi => h ⟨i, hi⟩

/-- The flag register after the result and the flag have been written (R95). -/
theorem State.getReg_setResultAndFlag (s : State) (x r : Reg) (b : Byte) (c : Bool) :
    (s.setResultAndFlag x b c).getReg r = if r = flagReg then flagByte c else if r = x then b else s.getReg r := by
  simp only [State.setResultAndFlag, State.setFlag, State.getReg_setReg, @eq_comm _ r]

/-- A register, as an entry of the register file, after a write of one register. -/
theorem State.setReg_entry (s : State) (x r : Reg) (b : Byte) :
    (s.setReg x b).v[r] = if r = x then b else s.v[r] := by
  by_cases h : r = x
  · subst h
    rw [if_pos rfl]
    exact State.getReg_setReg_self s r b
  · rw [if_neg h]
    exact State.getReg_setReg_of_ne s b h

end Sys2Proof.Machine
end

