-- ==== Sys2Proof/Laws/Cycle.lean ====
section
/-!
SUPPORT. What the phases of the cycle can do, said once (spec/40_cycle_dispatch.md R65 to R72).
-/

namespace Sys2Proof.Machine

/-- The delay tick in numbers (R69): down by one, never below 0. -/
theorem State.tickDelay_eq (s : State) : s.tickDelay = { s with dt := s.tickDelay.dt } := by
  unfold State.tickDelay
  split <;> rfl

theorem State.tickDelay_dt (s : State) : s.tickDelay.dt.toNat = s.dt.toNat - 1 := by
  unfold State.tickDelay
  split
  · rename_i h
    simp [h]
  · rename_i h
    have : s.dt.toNat ≠ 0 := fun hz => h (BitVec.eq_of_toNat_eq hz)
    simp only [State.setDt_dt]
    bv_omega

/-- The sound tick and the beep (R70, R71). -/
theorem State.tickSound_eq (s : State) : s.tickSound = { s with st := s.tickSound.st, beep := s.tickSound.beep } := by
  unfold State.tickSound
  split <;> rfl

theorem State.tickSound_st (s : State) : s.tickSound.st.toNat = s.st.toNat - 1 := by
  unfold State.tickSound
  split
  · rename_i h
    simp [h]
  · rename_i h
    have : s.st.toNat ≠ 0 := fun hz => h (BitVec.eq_of_toNat_eq hz)
    simp only [State.setBeep_st, State.setSt_st]
    bv_omega

theorem State.tickSound_beep (s : State) : s.tickSound.beep = true ↔ s.st = 1 := by
  unfold State.tickSound
  split
  · rename_i h
    simp [h]
  · simp only [State.setBeep_beep, beq_iff_eq]
    constructor <;> intro h <;> bv_omega

/-- The end of a cycle that raised a fault: no tick (R72). -/
theorem State.endCycle_of_fault {t : State} (h : t.fault ≠ none) : t.endCycle = t.nextDraw.markRunning := by
  have hs : t.fault.isSome = true := Option.isSome_iff_ne_none.mpr h
  simp [State.endCycle, State.timerPhase, hs]

/-- The end of a cycle that raised no fault: the timer phase (R65). -/
theorem State.endCycle_of_healthy {t : State} (h : t.fault = none) :
    t.endCycle = t.tickDelay.tickSound.nextDraw.markRunning := by
  simp [State.endCycle, State.timerPhase, h]

/-- What the end of a cycle leaves alone. -/
theorem State.endCycle_frame (t : State) :
    t.endCycle =
      { t with dt := t.endCycle.dt, st := t.endCycle.st, beep := t.endCycle.beep, draws := t.draws + 1,
               rnd := Config.rndDraw (t.draws + 1), boot := .running } := by
  by_cases h : t.fault = none
  · rw [State.endCycle_of_healthy h, State.tickSound_eq, State.tickDelay_eq]
    rfl
  · rw [State.endCycle_of_fault h]
    rfl

/-- What a step that goes on can do: no fault is latched, and it is the advance, the execute phase of the fetched word,
and the end of the cycle (R65). -/
theorem step_cases {s t : State} (h : step s = .next t) :
    s.fault = none ∧ ∃ u, t = u.endCycle ∧
      ((∃ i, decode s.fetchWord = .ok i ∧ exec i s.advance = .next u) ∨
        (∃ e, decode s.fetchWord = .error e ∧ u = s.advance)) := by
  unfold step State.cycle at h
  split at h
  · cases h
  · rename_i hf
    refine ⟨hf, ?_⟩
    split at h
    · rename_i u hu
      cases h
      refine ⟨u, rfl, ?_⟩
      unfold execWord at hu
      split at hu
      · exact .inl ⟨_, ‹_›, hu⟩
      · cases hu
        exact .inr ⟨_, ‹_›, rfl⟩
    · cases h
    · cases h

/-- A step from a faulted state is stuck (R156). -/
theorem step_of_fault {s : State} {record : FaultRecord} (h : s.fault = some record) :
    step s = .fault (.stuck record) := by
  simp [step, State.cycle, h]

/-- The host's request to a faulted engine returns at once with no state change (R72). -/
theorem State.requestCycle_of_fault {s : State} {record : FaultRecord} (h : s.fault = some record) (rnd : Byte) :
    s.requestCycle rnd = .next (s, .cycleDone false (some record)) := by
  simp [State.requestCycle, h]

/-- The host's request to a healthy engine is one step with the byte on the random port (R73). -/
theorem State.requestCycle_of_step {s t : State} {rnd : Byte} (hf : s.fault = none)
    (h : step { s with rnd := rnd } = .next t) : s.requestCycle rnd = .next (t, t.cycleReply) := by
  unfold State.requestCycle
  rw [h]
  split
  · simp_all
  · rfl

end Sys2Proof.Machine
end

