-- ==== Sys2Proof/Laws/Display.lean ====
section
/-!
SUPPORT. The sprite loops of DXYN in closed form: which cells they flip and what `hit` says (spec/43_display.md R117).
-/

namespace Sys2Proof.Machine

/-- The sprite row byte `b` with anchor column `x0`, restricted to its first `n` columns, covers column `x` with a 1
bit. -/
def rowCovers (b : Byte) (x0 n : Nat) (x : Fin 64) : Bool :=
  decide (x0 ≤ x.val) && decide (x.val < x0 + n) && b.getLsbD (7 - (x.val - x0))

/-- The first `n` rows of a sprite with anchor `(x0, y0)` cover the cell `(y, x)` with a 1 bit. -/
def spriteCovers (row : Nat → Byte) (x0 y0 n : Nat) (y : Fin 32) (x : Fin 64) : Bool :=
  decide (y0 ≤ y.val) && decide (y.val < y0 + n) && rowCovers (row (y.val - y0)) x0 8 x

theorem Display.cell_toggle (d : Display) (y y' : Fin 32) (x x' : Fin 64) :
    (d.toggle y x).cell y' x' = if y' = y ∧ x' = x then !d.cell y x else d.cell y' x' := by
  simp only [Display.toggle, Display.cell, Fin.getElem_fin, Vector.getElem_set, Fin.ext_iff]
  by_cases hy : y.val = y'.val
  · by_cases hx : x.val = x'.val
    · simp [hy, hx]
    · simp [hy, hx, Ne.symm hx]
  · simp [hy, Ne.symm hy]

/-- Two displays that agree on every cell are equal. -/
theorem Display.ext_cell {d d' : Display} (h : ∀ y x, d.cell y x = d'.cell y x) : d = d' :=
  Vector.ext fun i hi => Vector.ext fun j hj => h ⟨i, hi⟩ ⟨j, hj⟩

@[simp] theorem Display.cell_blank (y : Fin 32) (x : Fin 64) : Display.blank.cell y x = false := by
  simp [Display.cell, Display.blank]

/-- One more column covers one more cell at most. -/
theorem rowCovers_succ (b : Byte) (x0 n : Nat) (x : Fin 64) :
    rowCovers b x0 (n + 1) x = (rowCovers b x0 n x || (decide (x.val = x0 + n) && b.getLsbD (7 - n))) := by
  by_cases h : x.val = x0 + n
  · simp [rowCovers, h]
  · have hlt : x.val < x0 + (n + 1) ↔ x.val < x0 + n := by omega
    simp [rowCovers, h, hlt]

@[simp] theorem rowCovers_zero (b : Byte) (x0 : Nat) (x : Fin 64) : rowCovers b x0 0 x = false := by
  by_cases h : x0 ≤ x.val
  · simp [rowCovers, Nat.not_lt.mpr h]
  · simp [rowCovers, h]

theorem rowCovers_at_end (b : Byte) (x0 n : Nat) (x : Fin 64) (h : x.val = x0 + n) : rowCovers b x0 n x = false := by
  simp [rowCovers, h]

/-- The column loop over the first `n` columns of a sprite row. -/
theorem drawPixel_loop (b : Byte) (x0 : Nat) (y : Fin 32) (acc : Display × Bool) (n : Nat) :
    (∀ y' x', ((List.range n).foldl (drawPixel b x0 y) acc).1.cell y' x' =
      (acc.1.cell y' x' ^^ (decide (y' = y) && rowCovers b x0 n x'))) ∧
    (((List.range n).foldl (drawPixel b x0 y) acc).2 = true ↔
      acc.2 = true ∨ ∃ x', rowCovers b x0 n x' = true ∧ acc.1.cell y x' = true) := by
  induction n with
  | zero => simp
  | succ n ih =>
    obtain ⟨hc, hh⟩ := ih
    rw [List.range_succ, List.foldl_append, List.foldl_cons, List.foldl_nil]
    generalize (List.range n).foldl (drawPixel b x0 y) acc = r at hc hh
    unfold drawPixel
    split
    · rename_i hx
      split
      · rename_i hb
        have hend := rowCovers_at_end b x0 n ⟨x0 + n, hx⟩ rfl
        constructor
        · intro y' x'
          rw [Display.cell_toggle, hc, hc]
          by_cases hy : y' = y
          · by_cases hxx : x' = ⟨x0 + n, hx⟩
            · subst hy hxx
              simp [rowCovers_succ, hend, hb]
            · have hne : ¬ x'.val = x0 + n := fun he => hxx (Fin.ext he)
              simp [rowCovers_succ, hy, hxx, hne]
          · simp [hy]
        · simp only [Bool.or_eq_true, hh, hc, hend, Bool.and_false, Bool.xor_false, rowCovers_succ]
          constructor
          · rintro ((h | ⟨x', h, h'⟩) | h)
            · exact .inl h
            · exact .inr ⟨x', .inl h, h'⟩
            · exact .inr ⟨_, .inr (by simp [hb]), h⟩
          · rintro (h | ⟨x', h | h, h'⟩)
            · exact .inl (.inl h)
            · exact .inl (.inr ⟨x', h, h'⟩)
            · simp only [Bool.and_eq_true, decide_eq_true_eq] at h
              exact .inr ((show x' = ⟨x0 + n, hx⟩ from Fin.ext h.1) ▸ h')
      · rename_i hb
        simp only [rowCovers_succ, Bool.eq_false_of_not_eq_true hb, Bool.and_false, Bool.or_false]
        exact ⟨hc, hh⟩
    · rename_i hx
      have hsame : ∀ x' : Fin 64, rowCovers b x0 (n + 1) x' = rowCovers b x0 n x' := fun x' => by
        have hne : ¬ x'.val = x0 + n := by omega
        simp [rowCovers_succ, hne]
      simp only [hsame]
      exact ⟨hc, hh⟩

/-- One more row covers the cells of that row. -/
theorem spriteCovers_succ (row : Nat → Byte) (x0 y0 n : Nat) (y : Fin 32) (x : Fin 64) :
    spriteCovers row x0 y0 (n + 1) y x =
      (spriteCovers row x0 y0 n y x || (decide (y.val = y0 + n) && rowCovers (row n) x0 8 x)) := by
  by_cases h : y.val = y0 + n
  · simp [spriteCovers, h]
  · have hlt : y.val < y0 + (n + 1) ↔ y.val < y0 + n := by omega
    simp [spriteCovers, h, hlt]

@[simp] theorem spriteCovers_zero (row : Nat → Byte) (x0 y0 : Nat) (y : Fin 32) (x : Fin 64) :
    spriteCovers row x0 y0 0 y x = false := by
  by_cases h : y0 ≤ y.val
  · simp [spriteCovers, Nat.not_lt.mpr h]
  · simp [spriteCovers, h]

/-- The row loop over the first `n` rows of a sprite. -/
theorem drawSpriteRow_loop (row : Nat → Byte) (x0 y0 : Nat) (acc : Display × Bool) (n : Nat) :
    (∀ y x, ((List.range n).foldl (drawSpriteRow row x0 y0) acc).1.cell y x =
      (acc.1.cell y x ^^ spriteCovers row x0 y0 n y x)) ∧
    (((List.range n).foldl (drawSpriteRow row x0 y0) acc).2 = true ↔
      acc.2 = true ∨ ∃ y x, spriteCovers row x0 y0 n y x = true ∧ acc.1.cell y x = true) := by
  induction n with
  | zero => simp
  | succ n ih =>
    obtain ⟨hc, hh⟩ := ih
    rw [List.range_succ, List.foldl_append, List.foldl_cons, List.foldl_nil]
    generalize (List.range n).foldl (drawSpriteRow row x0 y0) acc = r at hc hh
    unfold drawSpriteRow
    split
    · rename_i hy
      obtain ⟨hrc, hrh⟩ := drawPixel_loop (row n) x0 ⟨y0 + n, hy⟩ r 8
      have hend : ∀ x, spriteCovers row x0 y0 n ⟨y0 + n, hy⟩ x = false := fun x => by simp [spriteCovers]
      constructor
      · intro y x
        rw [drawRow, hrc, hc, spriteCovers_succ]
        by_cases hyy : y = ⟨y0 + n, hy⟩
        · subst hyy
          simp [hend]
        · have hne : ¬ y.val = y0 + n := fun he => hyy (Fin.ext he)
          simp [hyy, hne]
      · rw [drawRow, hrh, hh]
        simp only [hc, hend, Bool.xor_false, spriteCovers_succ, Bool.or_eq_true]
        constructor
        · rintro ((h | ⟨y, x, h, h'⟩) | ⟨x, h, h'⟩)
          · exact .inl h
          · exact .inr ⟨y, x, .inl h, h'⟩
          · exact .inr ⟨_, x, .inr (by simp [h]), h'⟩
        · rintro (h | ⟨y, x, h | h, h'⟩)
          · exact .inl (.inl h)
          · exact .inl (.inr ⟨y, x, h, h'⟩)
          · simp only [Bool.and_eq_true, decide_eq_true_eq] at h
            have hyy : y = ⟨y0 + n, hy⟩ := Fin.ext h.1
            exact .inr ⟨x, h.2, hyy ▸ h'⟩
    · rename_i hy
      have hsame : ∀ (y : Fin 32) x, spriteCovers row x0 y0 (n + 1) y x = spriteCovers row x0 y0 n y x :=
        fun y x => by
          have hne : ¬ y.val = y0 + n := by omega
          simp [spriteCovers_succ, hne]
      simp only [hsame]
      exact ⟨hc, hh⟩

/-- Each cell after a sprite is drawn: flipped where the sprite covers it (R117). -/
theorem drawSprite_cell (row : Nat → Byte) (x0 y0 n : Nat) (d : Display) (y : Fin 32) (x : Fin 64) :
    (drawSprite row x0 y0 n d).1.cell y x = (d.cell y x ^^ spriteCovers row x0 y0 n y x) :=
  (drawSpriteRow_loop row x0 y0 (d, false) n).1 y x

/-- `hit` after a sprite is drawn: some cell that was on is covered (R117). -/
theorem drawSprite_hit (row : Nat → Byte) (x0 y0 n : Nat) (d : Display) :
    (drawSprite row x0 y0 n d).2 = true ↔
      ∃ y x, spriteCovers row x0 y0 n y x = true ∧ d.cell y x = true := by
  simpa [drawSprite] using (drawSpriteRow_loop row x0 y0 (d, false) n).2

end Sys2Proof.Machine
end

