-- ==== Sys2Proof/Laws/Encoding.lean ====
section
/-!
SUPPORT. The fields of a word built in each format (spec/30_encoding.md R51, R52), and every word as its fields.
-/

namespace Sys2Proof

/-! ## Words and fields as numbers -/

/-- Concatenation as arithmetic (R8 `cat`). -/
theorem toNat_cat {n m : Nat} (a : BitVec n) (b : BitVec m) : (a ++ b).toNat = a.toNat * 2 ^ m + b.toNat := by
  rw [BitVec.toNat_append, ← Nat.shiftLeft_add_eq_or_of_lt b.isLt, Nat.shiftLeft_eq]

theorem toNat_family (w : InsnWord) : (family w).toNat = w.toNat / 4096 := by
  have := w.isLt
  simp only [family, BitVec.extractLsb'_toNat, Nat.shiftRight_eq_div_pow]
  omega

theorem fieldX_val (w : InsnWord) : (fieldX w).val = w.toNat / 256 % 16 := by
  simp only [fieldX, Fin.val_ofNat, BitVec.extractLsb'_toNat, Nat.shiftRight_eq_div_pow]
  omega

theorem fieldY_val (w : InsnWord) : (fieldY w).val = w.toNat / 16 % 16 := by
  simp only [fieldY, Fin.val_ofNat, BitVec.extractLsb'_toNat, Nat.shiftRight_eq_div_pow]
  omega

theorem toNat_fieldN (w : InsnWord) : (fieldN w).toNat = w.toNat % 16 := by
  simp [fieldN, BitVec.extractLsb'_toNat]

theorem fieldHeight_val (w : InsnWord) : (fieldHeight w).val = w.toNat % 16 := by
  simp only [fieldHeight, Fin.val_ofNat, toNat_fieldN]
  omega

theorem toNat_fieldNN (w : InsnWord) : (fieldNN w).toNat = w.toNat % 256 := by
  simp [fieldNN, BitVec.extractLsb'_toNat]

theorem toNat_fieldNNN (w : InsnWord) : (fieldNNN w).toNat = w.toNat % 4096 := by
  simp [fieldNNN, BitVec.extractLsb'_toNat]

theorem toNat_regBits (r : Reg) : (regBits r).toNat = r.val := by
  simp only [regBits, BitVec.toNat_ofNat]
  omega

theorem toNat_formatA (f : BitVec 4) (n : Addr) : (formatA f n).toNat = f.toNat * 4096 + n.toNat :=
  toNat_cat f n

theorem toNat_formatI (f : BitVec 4) (x : Reg) (nn : Byte) :
    (formatI f x nn).toNat = f.toNat * 4096 + x.val * 256 + nn.toNat := by
  rw [formatI, toNat_cat, toNat_cat, toNat_regBits]
  omega

theorem toNat_formatR (f : BitVec 4) (x y : Reg) (n : BitVec 4) :
    (formatR f x y n).toNat = f.toNat * 4096 + x.val * 256 + y.val * 16 + n.toNat := by
  rw [formatR, toNat_cat, toNat_cat, toNat_cat, toNat_regBits, toNat_regBits]
  omega

theorem toNat_formatS (f : BitVec 4) (x : Reg) (b : Byte) :
    (formatS f x b).toNat = f.toNat * 4096 + x.val * 256 + b.toNat := toNat_formatI f x b

/-! ## The fields of a word built in each format -/

@[simp] theorem family_formatA (f : BitVec 4) (n : Addr) : family (formatA f n) = f :=
  BitVec.eq_of_toNat_eq (by rw [toNat_family, toNat_formatA]; omega)

@[simp] theorem fieldNNN_formatA (f : BitVec 4) (n : Addr) : fieldNNN (formatA f n) = n :=
  BitVec.eq_of_toNat_eq (by rw [toNat_fieldNNN, toNat_formatA]; omega)

@[simp] theorem family_formatI (f : BitVec 4) (x : Reg) (nn : Byte) : family (formatI f x nn) = f :=
  BitVec.eq_of_toNat_eq (by rw [toNat_family, toNat_formatI]; omega)

@[simp] theorem fieldX_formatI (f : BitVec 4) (x : Reg) (nn : Byte) : fieldX (formatI f x nn) = x :=
  Fin.ext (by rw [fieldX_val, toNat_formatI]; omega)

@[simp] theorem fieldNN_formatI (f : BitVec 4) (x : Reg) (nn : Byte) : fieldNN (formatI f x nn) = nn :=
  BitVec.eq_of_toNat_eq (by rw [toNat_fieldNN, toNat_formatI]; omega)

@[simp] theorem family_formatR (f : BitVec 4) (x y : Reg) (n : BitVec 4) : family (formatR f x y n) = f :=
  BitVec.eq_of_toNat_eq (by rw [toNat_family, toNat_formatR]; omega)

@[simp] theorem fieldX_formatR (f : BitVec 4) (x y : Reg) (n : BitVec 4) : fieldX (formatR f x y n) = x :=
  Fin.ext (by rw [fieldX_val, toNat_formatR]; omega)

@[simp] theorem fieldY_formatR (f : BitVec 4) (x y : Reg) (n : BitVec 4) : fieldY (formatR f x y n) = y :=
  Fin.ext (by rw [fieldY_val, toNat_formatR]; omega)

@[simp] theorem fieldN_formatR (f : BitVec 4) (x y : Reg) (n : BitVec 4) : fieldN (formatR f x y n) = n :=
  BitVec.eq_of_toNat_eq (by rw [toNat_fieldN, toNat_formatR]; omega)

@[simp] theorem fieldHeight_formatR (f : BitVec 4) (x y : Reg) (n : Height) :
    fieldHeight (formatR f x y (regBits n)) = n :=
  Fin.ext (by rw [fieldHeight_val, toNat_formatR, toNat_regBits]; omega)

@[simp] theorem family_formatS (f : BitVec 4) (x : Reg) (b : Byte) : family (formatS f x b) = f :=
  family_formatI f x b

@[simp] theorem fieldX_formatS (f : BitVec 4) (x : Reg) (b : Byte) : fieldX (formatS f x b) = x :=
  fieldX_formatI f x b

@[simp] theorem fieldNN_formatS (f : BitVec 4) (x : Reg) (b : Byte) : fieldNN (formatS f x b) = b :=
  fieldNN_formatI f x b

/-! ## Every word is built from its fields -/

theorem word_eq_formatA (w : InsnWord) : w = formatA (family w) (fieldNNN w) :=
  BitVec.eq_of_toNat_eq (by rw [toNat_formatA, toNat_family, toNat_fieldNNN]; omega)

theorem word_eq_formatI (w : InsnWord) : w = formatI (family w) (fieldX w) (fieldNN w) :=
  BitVec.eq_of_toNat_eq (by rw [toNat_formatI, toNat_family, fieldX_val, toNat_fieldNN]; have := w.isLt; omega)

theorem word_eq_formatR (w : InsnWord) : w = formatR (family w) (fieldX w) (fieldY w) (fieldN w) :=
  BitVec.eq_of_toNat_eq (by
    rw [toNat_formatR, toNat_family, fieldX_val, fieldY_val, toNat_fieldN]; have := w.isLt; omega)

theorem regBits_fieldHeight (w : InsnWord) : regBits (fieldHeight w) = fieldN w :=
  BitVec.eq_of_toNat_eq (by rw [toNat_regBits, fieldHeight_val, toNat_fieldN])

/-! ## The two bytes of a word (R31) -/

@[simp] theorem wordOfBytes_high_low (w : InsnWord) : wordOfBytes (wordHigh w) (wordLow w) = w := by
  refine BitVec.eq_of_toNat_eq ?_
  have := w.isLt
  rw [wordOfBytes, toNat_cat, wordHigh, wordLow]
  simp only [BitVec.extractLsb'_toNat, Nat.shiftRight_eq_div_pow]
  omega

end Sys2Proof
end

