-- ==== Sys2Proof/Laws/Memory.lean ====
section
/-!
SUPPORT. Memory as a list of cells: a read after a write, and the canonical form that every write keeps.
-/

namespace Sys2Proof.Machine

variable {font : Config.Font}

theorem Memory.read_erase (m : Memory) (a a' : Nat) :
    Memory.read font (Memory.erase m a) a' = if a' = a then resetByte font a else Memory.read font m a' := by
  induction m with
  | nil => by_cases h : a' = a <;> simp [Memory.erase, Memory.read, h]
  | cons c m ih =>
    obtain ⟨k, c⟩ := c
    simp only [Memory.erase] at ih
    by_cases hk : k = a
    · subst hk
      by_cases h : a' = k
      · simpa [Memory.erase, h] using ih
      · simpa [Memory.erase, Memory.read, h, Ne.symm h] using ih
    · by_cases h : k = a'
      · subst h
        simp [Memory.erase, Memory.read, hk]
      · simpa [Memory.erase, Memory.read, hk, h] using ih

theorem Memory.read_insert (m : Memory) (a a' : Nat) (b : Byte) (hm : ∀ c ∈ m, c.1 ≠ a) :
    Memory.read font (Memory.insert m a b) a' = if a' = a then b else Memory.read font m a' := by
  induction m with
  | nil => simp [Memory.insert, Memory.read, eq_comm]
  | cons c m ih =>
    obtain ⟨k, c⟩ := c
    have hk : k ≠ a := hm (k, c) List.mem_cons_self
    have ih := ih fun c hc => hm c (List.mem_cons_of_mem _ hc)
    by_cases hlt : a < k
    · simp [Memory.insert, hlt, Memory.read, eq_comm]
    · by_cases h : k = a'
      · subst h
        simp [Memory.insert, hlt, Memory.read, hk]
      · simp [Memory.insert, hlt, Memory.read, h, ih]

/-- A write replaces the byte at its address and leaves every other byte alone. -/
theorem Memory.read_write (m : Memory) (a a' : Nat) (b : Byte) :
    Memory.read font (Memory.write font m a b) a' = if a' = a then b else Memory.read font m a' := by
  unfold Memory.write
  split
  · rename_i hb
    rw [Memory.read_erase, hb]
  · rw [Memory.read_insert _ _ _ _ (by simp [Memory.erase]), Memory.read_erase]
    split <;> simp_all

theorem Memory.wfFrom_mono {lo lo' : Nat} {m : Memory} (hle : lo' ≤ lo) (h : Memory.wfFrom font lo m = true) :
    Memory.wfFrom font lo' m = true := by
  cases m with
  | nil => rfl
  | cons c m =>
    simp only [Memory.wfFrom, Bool.and_eq_true, decide_eq_true_eq] at h ⊢
    exact ⟨⟨⟨by omega, h.1.1.2⟩, h.1.2⟩, h.2⟩

theorem Memory.wfFrom_erase {m : Memory} {lo : Nat} (a : Nat) (h : Memory.wfFrom font lo m = true) :
    Memory.wfFrom font lo (Memory.erase m a) = true := by
  induction m generalizing lo with
  | nil => rfl
  | cons c m ih =>
    simp only [Memory.wfFrom, Bool.and_eq_true, decide_eq_true_eq] at h
    have hm := ih h.2
    by_cases hk : c.1 = a
    · simpa [Memory.erase, hk] using Memory.wfFrom_mono (by omega) hm
    · simpa [Memory.erase, hk, Memory.wfFrom, h.1] using hm

theorem Memory.wfFrom_insert {m : Memory} {lo a : Nat} {b : Byte} (h : Memory.wfFrom font lo m = true) (hlo : lo ≤ a)
    (ha : a < Config.memSize) (hb : b ≠ resetByte font a) (hm : ∀ c ∈ m, c.1 ≠ a) :
    Memory.wfFrom font lo (Memory.insert m a b) = true := by
  induction m generalizing lo with
  | nil => simp_all [Memory.insert, Memory.wfFrom]
  | cons c m ih =>
    have hne : c.1 ≠ a := hm c List.mem_cons_self
    have hm := fun d hd => hm d (List.mem_cons_of_mem c hd)
    simp only [Memory.wfFrom, Bool.and_eq_true, decide_eq_true_eq] at h
    by_cases hlt : a < c.1
    · have hlt' : a + 1 ≤ c.1 := hlt
      simp_all [Memory.insert, Memory.wfFrom]
    · have hrest := ih h.2 (by omega) hm
      simp only [Memory.insert, hlt, if_false, Memory.wfFrom, Bool.and_eq_true, decide_eq_true_eq]
      exact ⟨h.1, hrest⟩

/-- Every write keeps the canonical form. -/
theorem Memory.wf_write {m : Memory} {a : Nat} (b : Byte) (h : Memory.wf font m = true) (ha : a < Config.memSize) :
    Memory.wf font (Memory.write font m a b) = true := by
  unfold Memory.write
  split
  · exact Memory.wfFrom_erase a h
  · rename_i hb
    exact Memory.wfFrom_insert (Memory.wfFrom_erase a h) (Nat.zero_le a) ha hb (by simp [Memory.erase])

theorem Memory.wf_nil : Memory.wf font [] = true := rfl

/-- In the canonical form nothing below the first bound is listed. -/
theorem Memory.read_below {m : Memory} {lo a : Nat} (h : Memory.wfFrom font lo m = true) (ha : a < lo) :
    Memory.read font m a = resetByte font a := by
  induction m generalizing lo with
  | nil => rfl
  | cons c m ih =>
    simp only [Memory.wfFrom, Bool.and_eq_true, decide_eq_true_eq] at h
    have hk : c.1 ≠ a := by omega
    simp [Memory.read, hk, ih h.2 (by omega)]

/-- Two memories in canonical form that agree on every byte are equal data. -/
theorem Memory.ext_of_read {m m' : Memory} {lo : Nat} (h : Memory.wfFrom font lo m = true) (h' : Memory.wfFrom font lo m' = true)
    (heq : ∀ a, Memory.read font m a = Memory.read font m' a) : m = m' := by
  induction m generalizing lo m' with
  | nil =>
    cases m' with
    | nil => rfl
    | cons c m' =>
      have hc := heq c.1
      simp only [Memory.wfFrom, Bool.and_eq_true, decide_eq_true_eq, bne_iff_ne] at h'
      simp [Memory.read] at hc
      exact absurd hc.symm h'.1.2
  | cons c m ih =>
    simp only [Memory.wfFrom, Bool.and_eq_true, decide_eq_true_eq, bne_iff_ne] at h
    cases m' with
    | nil =>
      have hc := heq c.1
      simp [Memory.read] at hc
      exact absurd hc h.1.2
    | cons d m' =>
      simp only [Memory.wfFrom, Bool.and_eq_true, decide_eq_true_eq, bne_iff_ne] at h'
      have hk : c.1 = d.1 := by
        by_contra hne
        rcases Nat.lt_or_gt_of_ne hne with hlt | hgt
        · have hc := heq c.1
          have hd : d.1 ≠ c.1 := by omega
          simp [Memory.read, hd, Memory.read_below h'.2 (a := c.1) (by omega)] at hc
          exact h.1.2 hc
        · have hd := heq d.1
          have hc : c.1 ≠ d.1 := by omega
          simp [Memory.read, hc, Memory.read_below h.2 (a := d.1) (by omega)] at hd
          exact h'.1.2 hd.symm
      have hb : c.2 = d.2 := by
        have hc := heq c.1
        simpa [Memory.read, hk] using hc
      have hcd : c = d := Prod.ext hk hb
      subst hcd
      rw [ih h.2 h'.2 fun a => ?_]
      have ha := heq a
      by_cases hca : c.1 = a
      · rw [Memory.read_below h.2 (by omega), Memory.read_below h'.2 (by omega)]
      · simpa [Memory.read, hca] using ha

end Sys2Proof.Machine
end

