-- ==== Sys2Proof/Laws/Ops.lean ====
section
/-!
SUPPORT. What each shared operation can do, said once: stores, loads, push, pop, skips, keys. Later proofs cite these
lemmas instead of unfolding the operations.
-/

namespace Sys2Proof.Machine

/-! ## Skips -/

/-- A skip changes `pc` alone (R89). -/
theorem State.skipIf_eq (s : State) (c : Bool) : s.skipIf c = { s with pc := if c then s.pc + 2 else s.pc } := by
  cases c <;> rfl

/-! ## One byte of memory -/

/-- A byte after a store of one byte. -/
theorem State.readByte_putByte (s : State) (a a' : Addr) (b : Byte) :
    (s.putByte a b).readByte a' = if a' = a then b else s.readByte a' := by
  simp only [State.readByte, State.putByte_mem, State.putByte_params, Memory.read_write, BitVec.toNat_inj]

theorem State.readByte_congr {s t : State} (hp : s.params = t.params) (h : s.mem = t.mem) (a : Addr) :
    s.readByte a = t.readByte a := by
  simp [State.readByte, hp, h]

/-! ## Stores of several bytes -/

/-- Stores change memory alone. -/
theorem State.putBytes_frame (bs : List Byte) (a : Addr) (s : State) :
    s.putBytes a bs = { s with mem := (s.putBytes a bs).mem } := by
  induction bs generalizing a s with
  | nil => rfl
  | cons b bs ih => rw [State.putBytes, ih]; rfl

/-- The byte at an address after stores at rising addresses: the stored byte, or what it was (R33, R35). -/
theorem State.readByte_putBytes (bs : List Byte) (a a' : Addr) (s : State) (h : bs.length ≤ 4096) :
    (s.putBytes a bs).readByte a' = bs.getD (a' - a).toNat (s.readByte a') := by
  induction bs generalizing a s with
  | nil => rfl
  | cons b bs ih =>
    rw [State.putBytes, ih (a + 1) (s.putByte a b) (by simp at h; omega), State.readByte_putByte]
    simp only [List.length_cons] at h
    by_cases ha : a' = a
    · subst ha
      have hk : (a' - (a' + 1)).toNat = 4095 := by bv_omega
      rw [hk, List.getD_eq_default _ _ (show bs.length ≤ 4095 by omega)]
      simp
    · have hk : (a' - a).toNat = (a' - (a + 1)).toNat + 1 := by bv_omega
      simp [hk, ha]

/-- Stores keep the canonical form. -/
theorem State.wf_putBytes (bs : List Byte) (a : Addr) (s : State) (h : Memory.wf s.params.font s.mem = true) :
    Memory.wf s.params.font (s.putBytes a bs).mem = true := by
  induction bs generalizing a s with
  | nil => exact h
  | cons b bs ih => exact ih (a + 1) (s.putByte a b) (Memory.wf_write b h a.isLt)

/-- Stores outside the font block change memory alone. -/
theorem State.putBytesOutsideFont_frame (bs : List Byte) (a : Addr) (s : State) :
    s.putBytesOutsideFont a bs = { s with mem := (s.putBytesOutsideFont a bs).mem } := by
  induction bs generalizing a s with
  | nil => rfl
  | cons b bs ih =>
    rw [State.putBytesOutsideFont, ih]
    split <;> rfl

/-- The byte at an address after stores that leave out the font block (R36 `ignore`). -/
theorem State.readByte_putBytesOutsideFont (bs : List Byte) (a a' : Addr) (s : State) (h : bs.length ≤ 4096) :
    (s.putBytesOutsideFont a bs).readByte a' =
      if inFont a' then s.readByte a' else bs.getD (a' - a).toNat (s.readByte a') := by
  induction bs generalizing a s with
  | nil => simp [State.putBytesOutsideFont]
  | cons b bs ih =>
    simp only [List.length_cons] at h
    rw [State.putBytesOutsideFont, ih (a + 1) _ (by omega)]
    by_cases ha : a' = a
    · subst ha
      have hk : (a' - (a' + 1)).toNat = 4095 := by bv_omega
      rw [hk, List.getD_eq_default _ _ (show bs.length ≤ 4095 by omega)]
      cases hf : inFont a' <;> simp [State.readByte_putByte]
    · have hk : (a' - a).toNat = (a' - (a + 1)).toNat + 1 := by bv_omega
      cases hf : inFont a' <;> cases hg : inFont a <;> simp [hk, ha, State.readByte_putByte]

theorem State.wf_putBytesOutsideFont (bs : List Byte) (a : Addr) (s : State)
    (h : Memory.wf s.params.font s.mem = true) :
    Memory.wf s.params.font (s.putBytesOutsideFont a bs).mem = true := by
  induction bs generalizing a s with
  | nil => exact h
  | cons b bs ih =>
    rw [State.putBytesOutsideFont]
    split
    · exact ih (a + 1) s h
    · exact ih (a + 1) (s.putByte a b) (Memory.wf_write b h a.isLt)

/-- Which addresses make `touchesFont` hold (R36), in numbers. -/
theorem touchesFont_iff (a : Addr) (n : Nat) :
    touchesFont a n = true ↔ ∃ k < n, (a.toNat + k) % 4096 ≤ 0x04F := by
  simp only [touchesFont, List.any_eq_true, List.mem_range, inFont, decide_eq_true_eq, BitVec.toNat_add,
    BitVec.toNat_ofNat, Config.fontLen]
  exact exists_congr fun k => and_congr_right fun _ => by omega

/-- The stores of an instruction either raise FontWrite and write nothing, or all happen (R36). -/
theorem State.storeAtI_cases (policy : Config.FontWritePolicy) (w : InsnWord) (bs : List Byte) (after : State → State)
    (s : State) :
    ((policy = .fault ∧ touchesFont s.idx bs.length = true) ∧ s.storeAtI policy w bs after = s.raise .fontWrite w) ∨
      (¬(policy = .fault ∧ touchesFont s.idx bs.length = true) ∧
        s.storeAtI policy w bs after = after (s.storeBytes policy s.idx bs)) := by
  cases policy <;> cases h : touchesFont s.idx bs.length <;> simp [State.storeAtI, fontFaults, h]

/-- The byte stores change memory alone, under every policy. -/
theorem State.storeBytes_frame (policy : Config.FontWritePolicy) (bs : List Byte) (a : Addr) (s : State) :
    s.storeBytes policy a bs = { s with mem := (s.storeBytes policy a bs).mem } := by
  cases policy
  · exact State.putBytes_frame bs a s
  · exact State.putBytesOutsideFont_frame bs a s
  · exact State.putBytes_frame bs a s

/-- The byte at an address after the byte stores: the stored byte, but for the font block under `ignore` (R36). -/
theorem State.readByte_storeBytes (policy : Config.FontWritePolicy) (bs : List Byte) (a a' : Addr) (s : State)
    (h : bs.length ≤ 4096) :
    (s.storeBytes policy a bs).readByte a' =
      if policy = .ignore ∧ a'.toNat ≤ 0x04F then s.readByte a' else bs.getD (a' - a).toNat (s.readByte a') := by
  cases policy
  · rw [if_neg (by simp)]
    exact State.readByte_putBytes bs a a' s h
  · refine (State.readByte_putBytesOutsideFont bs a a' s h).trans (if_congr ?_ rfl rfl)
    simp only [inFont, decide_eq_true_eq, Config.fontLen, true_and]
    omega
  · rw [if_neg (by simp)]
    exact State.readByte_putBytes bs a a' s h

/-- The byte stores keep the canonical form, under every policy. -/
theorem State.wf_storeBytes (policy : Config.FontWritePolicy) (bs : List Byte) (a : Addr) (s : State)
    (h : Memory.wf s.params.font s.mem = true) : Memory.wf s.params.font (s.storeBytes policy a bs).mem = true := by
  cases policy
  · exact State.wf_putBytes bs a s h
  · exact State.wf_putBytesOutsideFont bs a s h
  · exact State.wf_putBytes bs a s h

/-- What FX55 and FX65 do to `I` (R146). -/
theorem State.bumpIdx_eq (increments : Bool) (x : Reg) (s : State) :
    State.bumpIdx increments x s =
      { s with idx := if increments then s.idx + BitVec.ofNat 12 (x.val + 1) else s.idx } := by
  cases increments <;> rfl

/-! ## The block load -/

theorem loadFromI_loop (s : State) (n : Nat) (hn : n ≤ 16) :
    (s.loadFromI n = { s with v := (s.loadFromI n).v }) ∧
      ∀ r : Reg, (s.loadFromI n).getReg r = if r.val < n then s.readByte (s.atI r.val) else s.getReg r := by
  induction n with
  | zero => exact ⟨rfl, fun r => by simp [State.loadFromI]⟩
  | succ n ih =>
    have ⟨hf, hr⟩ := ih (by omega)
    have hstep : s.loadFromI (n + 1) =
        (s.loadFromI n).setReg (Fin.ofNat 16 n) (s.readByte (s.atI n)) := by
      simp [State.loadFromI, List.range_succ, State.atI]
    refine ⟨by rw [hstep, hf]; rfl, fun r => ?_⟩
    rw [hstep, State.getReg_setReg, hr]
    by_cases h : r.val = n
    · subst h
      rw [if_pos (Fin.ext (Nat.mod_eq_of_lt r.isLt)), if_pos (Nat.lt_succ_self _)]
    · have hne : ¬ Fin.ofNat 16 n = r := fun he => h (by
        rw [← he, Fin.val_ofNat, Nat.mod_eq_of_lt (show n < 16 by omega)])
      rw [if_neg hne, if_congr (show r.val < n + 1 ↔ r.val < n by omega) rfl rfl]

/-- The block load changes the registers alone (R145). -/
theorem State.loadFromI_frame (s : State) (x : Reg) :
    s.loadFromI (x.val + 1) = { s with v := (s.loadFromI (x.val + 1)).v } :=
  (loadFromI_loop s (x.val + 1) (by omega)).1

/-- A register after the block load (R145). -/
theorem State.getReg_loadFromI (s : State) (x r : Reg) :
    (s.loadFromI (x.val + 1)).getReg r = if r ≤ x then s.readByte (s.atI r.val) else s.getReg r := by
  rw [(loadFromI_loop s (x.val + 1) (by omega)).2]
  exact if_congr Nat.lt_succ_iff rfl rfl

/-! ## The registers a block store writes -/

@[simp] theorem State.length_regsUpTo (s : State) (x : Reg) : (s.regsUpTo x).length = x.val + 1 := by
  simp [State.regsUpTo]

theorem State.getD_regsUpTo (s : State) (x : Reg) (k : Nat) (b : Byte) :
    (s.regsUpTo x).getD k b = if h : k ≤ x.val then s.getReg ⟨k, by omega⟩ else b := by
  unfold State.regsUpTo State.getReg
  split
  · rename_i h
    rw [List.getD_eq_getElem _ _ (by simp; omega)]
    simp
  · rename_i h
    rw [List.getD_eq_default _ _ (by simp; omega)]

/-! ## The stack -/

/-- What a push does (R14): it either stores and counts up, or raises StackOverflow and nothing else. -/
theorem State.push_cases (w : InsnWord) (a : Addr) (after : State → State) (s : State) :
    (∃ h : s.sp.val < 16, s.push w a after =
        after { s with stack := s.stack.set s.sp.val a h, sp := ⟨s.sp.val + 1, by omega⟩ }) ∨
      (s.sp.val = 16 ∧ s.push w a after = s.raise .stackOverflow w) := by
  by_cases h : s.sp.val < 16
  · exact .inl ⟨h, by simp [State.push, h]⟩
  · exact .inr ⟨by omega, by simp [State.push, h]⟩

/-- What a pop does (R14): it either counts down and reads, or raises StackUnderflow and nothing else. -/
theorem State.popPc_cases (w : InsnWord) (s : State) :
    (∃ h : 0 < s.sp.val, s.popPc w =
        { s with sp := ⟨s.sp.val - 1, by omega⟩, pc := s.stack[s.sp.val - 1]'(by have := s.sp.isLt; show s.sp.val - 1 < 16; omega) }) ∨
      (s.sp.val = 0 ∧ s.popPc w = s.raise .stackUnderflow w) := by
  by_cases h : s.sp.val = 0
  · exact .inr ⟨h, by simp [State.popPc, h]⟩
  · exact .inl ⟨by omega, by simp [State.popPc, h]⟩

/-! ## Operands in numbers -/

/-- `zext_12` keeps the value (R8). -/
theorem toNat_zext12 (b : Byte) : (zext12 b).toNat = b.toNat := by
  rw [zext12, BitVec.toNat_setWidth]
  omega

/-- The key number is the value modulo 16 (R125). -/
theorem keyNumber_eq (b : Byte) : keyNumber b = b.toNat % 16 := by
  simp [keyNumber, BitVec.extractLsb'_toNat]

@[simp] theorem length_bcdDigits (b : Byte) : (bcdDigits b).length = 3 := rfl

/-! ## Keys -/

/-- The lowest pressed key (R128): down, with every lower one up. -/
theorem lowestKey_eq_some {keys : Keys} {k : Nat} :
    lowestKey keys = some k ↔ k < 16 ∧ keys.getLsbD k = true ∧ ∀ j < k, keys.getLsbD j = false := by
  rw [lowestKey, List.find?_range_eq_some]
  simp [and_left_comm]

/-- There is no lowest pressed key exactly when none is down. -/
theorem lowestKey_eq_none {keys : Keys} : lowestKey keys = none ↔ keys = 0 := by
  rw [lowestKey, List.find?_range_eq_none]
  constructor
  · intro h
    exact BitVec.eq_of_getLsbD_eq fun k hk => by simpa using h k hk
  · rintro rfl k _
    simp

/-- The highest pressed key: down, with every higher one up. -/
theorem highestKey_eq_some {keys : Keys} {k : Nat} (h : highestKey keys = some k) :
    k < 16 ∧ keys.getLsbD k = true ∧ ∀ j, k < j → keys.getLsbD j = false := by
  unfold highestKey at h
  obtain ⟨hk, i, hi, hki, hup⟩ := List.find?_eq_some_iff_getElem.mp h
  simp only [List.length_reverse, List.length_range, Config.nKeys] at hi
  simp only [List.getElem_reverse, List.length_range, List.getElem_range, Config.nKeys] at hki hup
  refine ⟨by omega, hk, fun j hj => ?_⟩
  by_cases h16 : j < 16
  · have := hup (15 - j) (by omega)
    rw [show 16 - 1 - (15 - j) = j by omega] at this
    simpa using this
  · exact BitVec.getLsbD_of_ge _ _ (by omega)

/-- There is no highest pressed key exactly when none is down. -/
theorem highestKey_eq_none {keys : Keys} : highestKey keys = none ↔ keys = 0 := by
  rw [← lowestKey_eq_none]
  simp [highestKey, lowestKey]

/-- `FX0A` finds no key exactly when none is down, under every KEY_PICK (R128). -/
theorem pickKey_eq_none {pick : Config.KeyPick} {s : State} : pickKey pick s = none ↔ s.keys = 0 := by
  cases pick
  · exact lowestKey_eq_none
  · exact highestKey_eq_none
  · unfold pickKey
    dsimp only
    split
    · rename_i h
      refine iff_of_false (by simp) fun h0 => ?_
      rw [State.keyDown, h0] at h
      simp at h
    · exact lowestKey_eq_none

/-- The key that `FX0A` takes is down; it is the lowest or the highest one where KEY_PICK says so (R128). -/
theorem pickKey_eq_some {pick : Config.KeyPick} {s : State} {k : Nat} (h : pickKey pick s = some k) :
    k < 16 ∧ s.keys.getLsbD k = true ∧ (pick = .lowest → ∀ j < k, s.keys.getLsbD j = false) ∧
      (pick = .highest → ∀ j, k < j → s.keys.getLsbD j = false) := by
  cases pick
  · obtain ⟨h1, h2, h3⟩ := lowestKey_eq_some.mp h
    exact ⟨h1, h2, fun _ => h3, by simp⟩
  · obtain ⟨h1, h2, h3⟩ := highestKey_eq_some h
    exact ⟨h1, h2, by simp, fun _ => h3⟩
  · unfold pickKey at h
    dsimp only at h
    split at h
    · rename_i hd
      cases h
      exact ⟨Fin.isLt _, hd, by simp, by simp⟩
    · obtain ⟨h1, h2, _⟩ := lowestKey_eq_some.mp h
      exact ⟨h1, h2, by simp, by simp⟩

end Sys2Proof.Machine
end

