-- ==== Sys2Proof/Laws/PerInstr.lean ====
section
/-!
SUPPORT. Facts about each instruction as syntax, one lemma per constructor. Family OpcodeRowMatch: the word of an
instruction matches its own row of the opcode map (spec/30_encoding.md R56).
-/

namespace Sys2Proof.Laws.OpcodeRowMatch

/-- The word of an instruction matches its row: `w AND mask = match` (R56). -/
def Statement (i : Instr) : Prop := rowMatches (opcodeRow i) (encode i) = true

/-- A mask on the family alone. -/
theorem formatA_mask (f : BitVec 4) (n : Addr) : formatA f n &&& 0xF000 = formatA f 0 := by
  show (f ++ n) &&& (0xF#4 ++ 0x000#12) = f ++ 0#12
  rw [BitVec.and_append, show 0xF#4 = BitVec.allOnes 4 from rfl, BitVec.and_allOnes, BitVec.and_zero]

/-- A mask on the family alone, for a word with `X` and `NN`. -/
theorem formatI_mask (f : BitVec 4) (x : Reg) (nn : Byte) : formatI f x nn &&& 0xF000 = formatA f 0 := by
  rw [word_eq_formatA (formatI f x nn), family_formatI, formatA_mask]

/-- A mask on the family and the low byte. -/
theorem formatS_mask (f : BitVec 4) (x : Reg) (b : Byte) : formatS f x b &&& 0xF0FF = formatS f 0 b := by
  show (f ++ regBits x ++ b) &&& ((0xF#4 ++ 0x0#4) ++ 0xFF#8) = f ++ 0#4 ++ b
  rw [BitVec.and_append, BitVec.and_append, show 0xF#4 = BitVec.allOnes 4 from rfl,
    show 0xFF#8 = BitVec.allOnes 8 from rfl, BitVec.and_allOnes, BitVec.and_allOnes, BitVec.and_zero]

/-- A mask on the family and the low nibble. -/
theorem formatR_mask (f : BitVec 4) (x y : Reg) (n : BitVec 4) : formatR f x y n &&& 0xF00F = formatR f 0 0 n := by
  show (f ++ regBits x ++ regBits y ++ n) &&& (((0xF#4 ++ 0x0#4) ++ 0x0#4) ++ 0xF#4) = f ++ 0#4 ++ 0#4 ++ n
  rw [BitVec.and_append, BitVec.and_append, BitVec.and_append, show 0xF#4 = BitVec.allOnes 4 from rfl,
    BitVec.and_allOnes, BitVec.and_allOnes, BitVec.and_zero, BitVec.and_zero]

/-- A mask on the family alone, for a word with `X`, `Y` and a low nibble. -/
theorem formatD_mask (f : BitVec 4) (x y : Reg) (n : BitVec 4) : formatR f x y n &&& 0xF000 = formatA f 0 := by
  rw [word_eq_formatA (formatR f x y n), family_formatR, formatA_mask]

theorem sys (nnn : Addr) : Statement (.sys nnn) := beq_iff_eq.mpr (formatA_mask _ _)

theorem cls : Statement .cls := rfl

theorem ret : Statement .ret := rfl

theorem jp (nnn : Addr) : Statement (.jp nnn) := beq_iff_eq.mpr (formatA_mask _ _)

theorem call (nnn : Addr) : Statement (.call nnn) := beq_iff_eq.mpr (formatA_mask _ _)

theorem seImm (x : Reg) (nn : Byte) : Statement (.seImm x nn) := beq_iff_eq.mpr (formatI_mask _ _ _)

theorem sneImm (x : Reg) (nn : Byte) : Statement (.sneImm x nn) := beq_iff_eq.mpr (formatI_mask _ _ _)

theorem seReg (x : Reg) (y : Reg) : Statement (.seReg x y) := beq_iff_eq.mpr (formatR_mask _ _ _ _)

theorem ldImm (x : Reg) (nn : Byte) : Statement (.ldImm x nn) := beq_iff_eq.mpr (formatI_mask _ _ _)

theorem addImm (x : Reg) (nn : Byte) : Statement (.addImm x nn) := beq_iff_eq.mpr (formatI_mask _ _ _)

theorem ldReg (x : Reg) (y : Reg) : Statement (.ldReg x y) := beq_iff_eq.mpr (formatR_mask _ _ _ _)

theorem orReg (x : Reg) (y : Reg) : Statement (.orReg x y) := beq_iff_eq.mpr (formatR_mask _ _ _ _)

theorem andReg (x : Reg) (y : Reg) : Statement (.andReg x y) := beq_iff_eq.mpr (formatR_mask _ _ _ _)

theorem xorReg (x : Reg) (y : Reg) : Statement (.xorReg x y) := beq_iff_eq.mpr (formatR_mask _ _ _ _)

theorem addReg (x : Reg) (y : Reg) : Statement (.addReg x y) := beq_iff_eq.mpr (formatR_mask _ _ _ _)

theorem sub (x : Reg) (y : Reg) : Statement (.sub x y) := beq_iff_eq.mpr (formatR_mask _ _ _ _)

theorem shr (x : Reg) (y : Reg) : Statement (.shr x y) := beq_iff_eq.mpr (formatR_mask _ _ _ _)

theorem subn (x : Reg) (y : Reg) : Statement (.subn x y) := beq_iff_eq.mpr (formatR_mask _ _ _ _)

theorem shl (x : Reg) (y : Reg) : Statement (.shl x y) := beq_iff_eq.mpr (formatR_mask _ _ _ _)

theorem sneReg (x : Reg) (y : Reg) : Statement (.sneReg x y) := beq_iff_eq.mpr (formatR_mask _ _ _ _)

theorem ldI (nnn : Addr) : Statement (.ldI nnn) := beq_iff_eq.mpr (formatA_mask _ _)

theorem jpV0 (nnn : Addr) : Statement (.jpV0 nnn) := beq_iff_eq.mpr (formatA_mask _ _)

theorem rnd (x : Reg) (nn : Byte) : Statement (.rnd x nn) := beq_iff_eq.mpr (formatI_mask _ _ _)

theorem drw (x : Reg) (y : Reg) (n : Height) : Statement (.drw x y n) := beq_iff_eq.mpr (formatD_mask _ _ _ _)

theorem skp (x : Reg) : Statement (.skp x) := beq_iff_eq.mpr (formatS_mask _ _ _)

theorem sknp (x : Reg) : Statement (.sknp x) := beq_iff_eq.mpr (formatS_mask _ _ _)

theorem ldVxDt (x : Reg) : Statement (.ldVxDt x) := beq_iff_eq.mpr (formatS_mask _ _ _)

theorem ldVxK (x : Reg) : Statement (.ldVxK x) := beq_iff_eq.mpr (formatS_mask _ _ _)

theorem ldDtVx (x : Reg) : Statement (.ldDtVx x) := beq_iff_eq.mpr (formatS_mask _ _ _)

theorem ldStVx (x : Reg) : Statement (.ldStVx x) := beq_iff_eq.mpr (formatS_mask _ _ _)

theorem addI (x : Reg) : Statement (.addI x) := beq_iff_eq.mpr (formatS_mask _ _ _)

theorem ldF (x : Reg) : Statement (.ldF x) := beq_iff_eq.mpr (formatS_mask _ _ _)

theorem ldB (x : Reg) : Statement (.ldB x) := beq_iff_eq.mpr (formatS_mask _ _ _)

theorem storeRegs (x : Reg) : Statement (.storeRegs x) := beq_iff_eq.mpr (formatS_mask _ _ _)

theorem loadRegs (x : Reg) : Statement (.loadRegs x) := beq_iff_eq.mpr (formatS_mask _ _ _)

end Sys2Proof.Laws.OpcodeRowMatch
end

