-- ==== Sys2Proof/Tests/Slice0.lean ====
section
/-!
SUPPORT. Tests and witnesses: the well-formedness check refuses the ill-formed terms, the decoder reads words written out
from spec/30_encoding.md R56, single steps give the results of spec/95_test_vectors.md (the identifier of a vector stands
in the comment of its test), and every statement with hypotheses has a concrete input that meets them.
-/

namespace Sys2Proof.Tests

open Sys2Proof.Machine Sys2Proof.Claims

/-! ## Helpers -/

/-- The reset state with one word at 0x200. -/
def start (w : InsnWord) : State := State.reset.withFetchWord 16 w.toNat

/-- A state with one word where `pc` points. -/
def placed (s : State) (pc : Addr) (w : InsnWord) : State := { s with pc := pc }.withFetchWord 16 w.toNat

/-- The result of the step from a state satisfies a test. -/
def ran (s : State) (p : State → Bool) : Bool :=
  match step s with
  | .next t => p t
  | .fault _ => false
  | .refused _ => false

/-- The state after a step; the state itself where the step stops. -/
def after (s : State) : State :=
  match step s with
  | .next t => t
  | .fault _ => s
  | .refused _ => s

theorem step_eq_after {s : State} {p : State → Bool} (h : ran s p = true) : step s = .next (after s) := by
  unfold ran at h
  unfold after
  cases hs : step s <;> simp_all

/-- A state that a font write has faulted, with time on the delay timer. -/
def faulted (s : State) : State := { s with dt := 5, fault := some ⟨.fontWrite, 0x1FE, 0xF033⟩ }

/-- The parameters with every value another one than the default (R7). -/
def otherParams : Config.Params where
  font := Vector.replicate 80 0x3C
  fontWritePolicy := .ignore
  shiftSource := .vy
  keyPick := .highest
  loadStoreIncrementsI := true
  jumpOffsetReg := .vx

/-- The machine with those parameters after reset, with one word at 0x200. -/
def startOther (w : InsnWord) : State := (State.resetWith otherParams).withFetchWord 16 w.toNat

/-- The columns of the cells that are on in one row. -/
def rowOn (s : State) (y : Fin 32) : List Nat := ((List.finRange 64).filter fun x => s.disp[y][x]).map Fin.val

/-- The display with one cell on. -/
def oneCell (y : Fin 32) (x : Fin 64) : Display := Display.blank.toggle y x

/-! ## Well-formedness: one ill-formed term for the one check, at both its values -/

theorem test_wf_refuses_sys_0E0 : (Instr.sys 0x0E0).wf = false := by decide

theorem test_wf_refuses_sys_0EE : (Instr.sys 0x0EE).wf = false := by decide

theorem test_wf_accepts_sys_0E1 : (Instr.sys 0x0E1).wf = true := by decide

/-! ## Decoding: the word of every constructor, written out bit by bit from R56 -/

theorem test_decode_sys : decode 0b0000000100100011#16 = .ok (.sys 0x123) := by decide

theorem test_decode_cls : decode 0b0000000011100000#16 = .ok .cls := by decide

theorem test_decode_ret : decode 0b0000000011101110#16 = .ok .ret := by decide

theorem test_decode_jp : decode 0b0001101010111100#16 = .ok (.jp 0xABC) := by decide

theorem test_decode_call : decode 0b0010001100000001#16 = .ok (.call 0x301) := by decide

theorem test_decode_seImm : decode 0b0011001100101010#16 = .ok (.seImm 3 0x2A) := by decide

theorem test_decode_sneImm : decode 0b0100101001011100#16 = .ok (.sneImm 10 0x5C) := by decide

theorem test_decode_seReg : decode 0b0101000100100000#16 = .ok (.seReg 1 2) := by decide

theorem test_decode_ldImm : decode 0b0110101000101111#16 = .ok (.ldImm 10 0x2F) := by decide

theorem test_decode_addImm : decode 0b0111000111111110#16 = .ok (.addImm 1 0xFE) := by decide

theorem test_decode_ldReg : decode 0b1000000100100000#16 = .ok (.ldReg 1 2) := by decide

theorem test_decode_orReg : decode 0b1000000100100001#16 = .ok (.orReg 1 2) := by decide

theorem test_decode_andReg : decode 0b1000000100100010#16 = .ok (.andReg 1 2) := by decide

theorem test_decode_xorReg : decode 0b1000000100100011#16 = .ok (.xorReg 1 2) := by decide

theorem test_decode_addReg : decode 0b1000111100010100#16 = .ok (.addReg 15 1) := by decide

theorem test_decode_sub : decode 0b1000000111110101#16 = .ok (.sub 1 15) := by decide

theorem test_decode_shr : decode 0b1000000100100110#16 = .ok (.shr 1 2) := by decide

theorem test_decode_subn : decode 0b1000000100100111#16 = .ok (.subn 1 2) := by decide

theorem test_decode_shl : decode 0b1000000100101110#16 = .ok (.shl 1 2) := by decide

theorem test_decode_sneReg : decode 0b1001000100100000#16 = .ok (.sneReg 1 2) := by decide

theorem test_decode_ldI : decode 0b1010001011110001#16 = .ok (.ldI 0x2F1) := by decide

theorem test_decode_jpV0 : decode 0b1011001011111110#16 = .ok (.jpV0 0x2FE) := by decide

theorem test_decode_rnd : decode 0b1100000100001111#16 = .ok (.rnd 1 0x0F) := by decide

theorem test_decode_drw : decode 0b1101000100100101#16 = .ok (.drw 1 2 5) := by decide

theorem test_decode_skp : decode 0b1110001010011110#16 = .ok (.skp 2) := by decide

theorem test_decode_sknp : decode 0b1110001010100001#16 = .ok (.sknp 2) := by decide

theorem test_decode_ldVxDt : decode 0b1111010000000111#16 = .ok (.ldVxDt 4) := by decide

theorem test_decode_ldVxK : decode 0b1111001100001010#16 = .ok (.ldVxK 3) := by decide

theorem test_decode_ldDtVx : decode 0b1111010000010101#16 = .ok (.ldDtVx 4) := by decide

theorem test_decode_ldStVx : decode 0b1111010000011000#16 = .ok (.ldStVx 4) := by decide

theorem test_decode_addI : decode 0b1111001000011110#16 = .ok (.addI 2) := by decide

theorem test_decode_ldF : decode 0b1111001100101001#16 = .ok (.ldF 3) := by decide

theorem test_decode_ldB : decode 0b1111010100110011#16 = .ok (.ldB 5) := by decide

theorem test_decode_storeRegs : decode 0b1111001001010101#16 = .ok (.storeRegs 2) := by decide

theorem test_decode_loadRegs : decode 0b1111010001100101#16 = .ok (.loadRegs 4) := by decide

theorem test_decode_refuses_5121 : decode 0b0101000100100001#16 = .error .family5LowNibble := by decide

theorem test_decode_refuses_8128 : decode 0b1000000100101000#16 = .error .family8LowNibble := by decide

theorem test_decode_refuses_9125 : decode 0b1001000100100101#16 = .error .family9LowNibble := by decide

theorem test_decode_refuses_E19F : decode 0b1110000110011111#16 = .error .familyELowByte := by decide

theorem test_decode_refuses_F130 : decode 0b1111000100110000#16 = .error .familyFLowByte := by decide

theorem test_decodeTableWord :
    decodeTableWord 16 0x8124 = some (.addReg 1 2) ∧ decodeTableWord 16 0x8128 = none ∧ decodeTableWord 8 0x12E0 = some .cls := by decide

/-! ## Single steps, by the vectors of spec/95_test_vectors.md -/

/-- CY1 -/
theorem test_cycle_ticks_and_beeps :
    ran { (start 0x0000) with dt := 1, st := 1 } (fun t => t.pc = 0x202 ∧ t.dt = 0 ∧ t.st = 0 ∧ t.beep = true) = true := by decide

/-- CY3 -/
theorem test_cycle_no_beep_at_2 :
    ran { (start 0x0000) with dt := 5, st := 2 } (fun t => t.dt = 4 ∧ t.st = 1 ∧ t.beep = false) = true := by decide

/-- CY4: the high byte from 0xFFF, the low byte from 0x000, which the font gives -/
theorem test_fetch_wraps : ran { (State.reset.putByte 0xFFF 0x12) with pc := 0xFFF } (fun t => t.pc = 0x2F0) = true := by decide

/-- CY5 -/
theorem test_fetch_odd_pc :
    ran (placed State.reset 0x201 0x6A55) (fun t => t.v[(10 : Reg)] = 0x55 ∧ t.pc = 0x203) = true := by decide

/-- CY6 -/
theorem test_pc_wraps : ran (placed State.reset 0xFFE 0x0123) (fun t => t.pc = 0x000) = true := by decide

/-- CY7, the request at the host's port (R72) -/
theorem test_faulted_engine_does_nothing :
    hostStep (.cycle 0) (faulted (start 0x6A2F)) =
      .next (faulted (start 0x6A2F), .cycleDone false (some ⟨.fontWrite, 0x1FE, 0xF033⟩)) := rfl

/-- R156, 93_implementation_defined.md U16 -/
theorem test_faulted_machine_is_stuck : step (faulted (start 0x6A2F)) = .fault (.stuck ⟨.fontWrite, 0x1FE, 0xF033⟩) := rfl

/-- CT18 -/
theorem test_unmapped_is_noop :
    ran (((start 0x5121).setReg 1 0x07).setReg 2 0x07) (fun t => t.pc = 0x202 ∧ t.fault = none) = true := by decide

/-- CT22 -/
theorem test_unmapped_family9_is_noop : ran (((start 0x9125).setReg 1 0x07).setReg 2 0x08) (fun t => t.pc = 0x202) = true := by decide

/-- CT1 -/
theorem test_sys : ran (start 0x0123) (fun t => t.pc = 0x202) = true := by decide

/-- CT2 -/
theorem test_ret :
    ran { (placed State.reset 0x300 0x00EE) with sp := 1, stack := State.reset.stack.set 0 0x204 } (fun t => t.pc = 0x204 ∧ t.sp = 0 ∧ t.stack[0] = 0x204) = true := by decide

/-- CT3 -/
theorem test_ret_underflow :
    ran { (placed State.reset 0x300 0x00EE) with dt := 4 } (fun t => t.pc = 0x302 ∧ t.sp = 0 ∧ t.dt = 4 ∧ t.fault = some ⟨.stackUnderflow, 0x300, 0x00EE⟩) = true := by decide

/-- CT4 -/
theorem test_jp : ran (start 0x1ABC) (fun t => t.pc = 0xABC) = true := by decide

/-- CT5 -/
theorem test_jp_odd : ran (start 0x1201) (fun t => t.pc = 0x201) = true := by decide

/-- CT8 -/
theorem test_call :
    ran { (placed State.reset 0x202 0x2300) with sp := 15 } (fun t => t.stack[15] = 0x204 ∧ t.sp = 16 ∧ t.pc = 0x300) = true := by decide

/-- CT9 -/
theorem test_call_overflow :
    ran { (placed State.reset 0x202 0x2300) with sp := 16 } (fun t => t.pc = 0x204 ∧ t.sp = 16 ∧ t.stack = State.reset.stack ∧ t.fault = some ⟨.stackOverflow, 0x202, 0x2300⟩) = true := by decide

/-- CT11 -/
theorem test_seImm_skips : ran ((start 0x332A).setReg 3 0x2A) (fun t => t.pc = 0x204) = true := by decide

/-- CT13 -/
theorem test_seImm_wraps : ran (placed State.reset 0xFFC 0x3000) (fun t => t.pc = 0x000) = true := by decide

/-- CT14 -/
theorem test_sneImm_equal : ran ((start 0x432A).setReg 3 0x2A) (fun t => t.pc = 0x202) = true := by decide

/-- CT15 -/
theorem test_sneImm_differs : ran ((start 0x4300).setReg 3 0x2A) (fun t => t.pc = 0x204) = true := by decide

/-- CT16 -/
theorem test_seReg_equal : ran (((start 0x5120).setReg 1 0x07).setReg 2 0x07) (fun t => t.pc = 0x204) = true := by decide

/-- CT17 -/
theorem test_seReg_differs : ran (((start 0x5120).setReg 1 0x07).setReg 2 0x08) (fun t => t.pc = 0x202) = true := by decide

/-- CT20 -/
theorem test_sneReg_differs : ran (((start 0x9120).setReg 1 0x07).setReg 2 0x08) (fun t => t.pc = 0x204) = true := by decide

/-- CT21 -/
theorem test_sneReg_equal : ran (((start 0x9120).setReg 1 0x07).setReg 2 0x07) (fun t => t.pc = 0x202) = true := by decide

/-- CT23 -/
theorem test_jpV0 : ran ((start 0xB300).setReg 0 0x04) (fun t => t.pc = 0x304) = true := by decide

/-- CT24 -/
theorem test_jpV0_wraps : ran ((start 0xBFFF).setReg 0 0x02) (fun t => t.pc = 0x001) = true := by decide

/-- A1 -/
theorem test_ldImm : ran (start 0x6A2F) (fun t => t.v[(10 : Reg)] = 0x2F) = true := by decide

/-- A2 -/
theorem test_ldImm_flag_register : ran ((start 0x6F00).setReg 15 0x01) (fun t => t.v[(15 : Reg)] = 0x00) = true := by decide

/-- A3 -/
theorem test_addImm_keeps_flag :
    ran (((start 0x7120).setReg 1 0xF0).setReg 15 0x01) (fun t => t.v[(1 : Reg)] = 0x10 ∧ t.v[(15 : Reg)] = 0x01) = true := by decide

/-- A5 -/
theorem test_ldReg :
    ran ((start 0x8120).setReg 2 0x09) (fun t => t.v[(1 : Reg)] = 0x09 ∧ t.v[(2 : Reg)] = 0x09) = true := by decide

/-- A6 -/
theorem test_orReg :
    ran ((((start 0x8121).setReg 1 0x0F).setReg 2 0xF0).setReg 15 0x01) (fun t => t.v[(1 : Reg)] = 0xFF ∧ t.v[(15 : Reg)] = 0x01) = true := by decide

/-- A7 -/
theorem test_andReg :
    ran ((((start 0x8122).setReg 1 0x3C).setReg 2 0x0F).setReg 15 0x01) (fun t => t.v[(1 : Reg)] = 0x0C ∧ t.v[(15 : Reg)] = 0x01) = true := by decide

/-- A8 -/
theorem test_xorReg :
    ran ((((start 0x8123).setReg 1 0xFF).setReg 2 0x0F).setReg 15 0x01) (fun t => t.v[(1 : Reg)] = 0xF0 ∧ t.v[(15 : Reg)] = 0x01) = true := by decide

/-- A10 -/
theorem test_addReg_carry :
    ran (((start 0x8124).setReg 1 0xC8).setReg 2 0x64) (fun t => t.v[(1 : Reg)] = 0x2C ∧ t.v[(15 : Reg)] = 0x01) = true := by decide

/-- A15 -/
theorem test_addReg_flag_last :
    ran (((start 0x8F14).setReg 15 0xFF).setReg 1 0x01) (fun t => t.v[(15 : Reg)] = 0x01) = true := by decide

/-- A18 -/
theorem test_sub_borrow :
    ran ((((start 0x8125).setReg 1 0x10).setReg 2 0x20).setReg 15 0x01) (fun t => t.v[(1 : Reg)] = 0xF0 ∧ t.v[(15 : Reg)] = 0x00) = true := by decide

/-- A20 -/
theorem test_sub_equal :
    ran (((start 0x8125).setReg 1 0x33).setReg 2 0x33) (fun t => t.v[(1 : Reg)] = 0x00 ∧ t.v[(15 : Reg)] = 0x01) = true := by decide

/-- A24 -/
theorem test_subn_borrow :
    ran ((((start 0x8127).setReg 1 0x20).setReg 2 0x10).setReg 15 0x01) (fun t => t.v[(1 : Reg)] = 0xF0 ∧ t.v[(15 : Reg)] = 0x00) = true := by decide

/-- A23 -/
theorem test_subn :
    ran (((start 0x8127).setReg 1 0x10).setReg 2 0x20) (fun t => t.v[(1 : Reg)] = 0x10 ∧ t.v[(15 : Reg)] = 0x01) = true := by decide

/-- A29 -/
theorem test_shr_ignores_y :
    ran ((((start 0x8126).setReg 1 0x04).setReg 2 0xFF).setReg 15 0x01) (fun t => t.v[(1 : Reg)] = 0x02 ∧ t.v[(2 : Reg)] = 0xFF ∧ t.v[(15 : Reg)] = 0x00) = true := by decide

/-- A30 -/
theorem test_shr_flag_last : ran ((start 0x8F06).setReg 15 0x02) (fun t => t.v[(15 : Reg)] = 0x00) = true := by decide

/-- A31 -/
theorem test_shl :
    ran ((start 0x810E).setReg 1 0x81) (fun t => t.v[(1 : Reg)] = 0x02 ∧ t.v[(15 : Reg)] = 0x01) = true := by decide

/-- A34 -/
theorem test_shl_flag_last : ran ((start 0x8F0E).setReg 15 0x81) (fun t => t.v[(15 : Reg)] = 0x01) = true := by decide

/-- A36 -/
theorem test_rnd : ran { (start 0xC10F) with rnd := 0xA7 } (fun t => t.v[(1 : Reg)] = 0x07) = true := by decide

/-- D2, with I = 0x000, the font glyph 0 -/
theorem test_drw_wraps_anchor :
    ran (((start 0xD125).setReg 1 0x46).setReg 2 0x21) (fun t => rowOn t 1 = [6, 7, 8, 9] ∧ rowOn t 2 = [6, 9] ∧ t.v[(15 : Reg)] = 0x00) = true := by decide

/-- D5 and D3: a lit cell met at the left, the right half clipped -/
theorem test_drw_clips_and_collides :
    ran { ((((start 0xD121).setReg 1 0x3C).setReg 2 0x00).putByte 0x300 0xFF) with idx := 0x300, disp := oneCell 0 60 } (fun t => rowOn t 0 = [61, 62, 63] ∧ t.v[(15 : Reg)] = 0x01) = true := by decide

/-- D12 -/
theorem test_cls :
    ran { ((start 0x00E0).setReg 15 0x01) with disp := oneCell 31 63 } (fun t => rowOn t 31 = [] ∧ t.v[(15 : Reg)] = 0x01) = true := by decide

/-- K3 -/
theorem test_skp_low_four_bits : ran { ((start 0xE29E).setReg 2 0x15) with keys := 0x0020 } (fun t => t.pc = 0x204) = true := by decide

/-- K2 -/
theorem test_skp_up : ran ((start 0xE29E).setReg 2 0x05) (fun t => t.pc = 0x202) = true := by decide

/-- K5 -/
theorem test_sknp_down : ran { ((start 0xE2A1).setReg 2 0x05) with keys := 0x0020 } (fun t => t.pc = 0x202) = true := by decide

/-- K6 -/
theorem test_sknp_others_down : ran { ((start 0xE2A1).setReg 2 0x05) with keys := 0xFFDF } (fun t => t.pc = 0x204) = true := by decide

/-- K7 -/
theorem test_ldVxK_waits :
    ran { (placed State.reset 0x210 0xF30A) with dt := 2 } (fun t => t.pc = 0x210 ∧ t.v[(3 : Reg)] = 0x00 ∧ t.dt = 1) = true := by decide

/-- K8 -/
theorem test_ldVxK_lowest :
    ran { (placed State.reset 0x210 0xF30A) with keys := 0x0108 } (fun t => t.v[(3 : Reg)] = 0x03 ∧ t.pc = 0x212) = true := by decide

/-- K11 -/
theorem test_ldVxDt :
    ran { (start 0xF407) with dt := 0x1E } (fun t => t.v[(4 : Reg)] = 0x1E ∧ t.dt = 0x1D) = true := by decide

/-- K12 -/
theorem test_ldDtVx : ran ((start 0xF415).setReg 4 0x3C) (fun t => t.dt = 0x3B) = true := by decide

/-- K16 -/
theorem test_ldStVx_one_beeps : ran ((start 0xF418).setReg 4 0x01) (fun t => t.st = 0 ∧ t.beep = true) = true := by decide

/-- K17 -/
theorem test_ldStVx_zero_is_silent :
    ran { ((start 0xF418).setReg 4 0x00) with st := 5 } (fun t => t.st = 0 ∧ t.beep = false) = true := by decide

/-- M1 -/
theorem test_ldI : ran (start 0xA2F0) (fun t => t.idx = 0x2F0) = true := by decide

/-- M3 -/
theorem test_addI_wraps :
    ran { ((start 0xF21E).setReg 2 0x01) with idx := 0xFFF } (fun t => t.idx = 0x000 ∧ t.v[(15 : Reg)] = 0x00) = true := by decide

/-- M4 -/
theorem test_ldF : ran ((start 0xF329).setReg 3 0x0A) (fun t => t.idx = 0x032) = true := by decide

/-- M5 -/
theorem test_ldF_above_F : ran ((start 0xF329).setReg 3 0xFF) (fun t => t.idx = 0x4FB) = true := by decide

/-- M13 -/
theorem test_ldB :
    ran { ((start 0xF033).setReg 0 0x7B) with idx := 0xFFD } (fun t => [0xFFD, 0xFFE, 0xFFF].map t.readByte = [1, 2, 3] ∧ t.idx = 0xFFD) = true := by decide

/-- M12 -/
theorem test_ldB_wraps_into_font :
    ran { ((start 0xF033).setReg 0 0x7B) with idx := 0xFFE } (fun t => t.fault = some ⟨.fontWrite, 0x200, 0xF033⟩ ∧ t.readByte 0xFFE = 0 ∧ t.pc = 0x202) = true := by decide

/-- M14 -/
theorem test_storeRegs :
    ran { (((((start 0xF255).setReg 0 0x01).setReg 1 0x02).setReg 2 0x03).setReg 3 0x04) with idx := 0x300 } (fun t => [0x300, 0x301, 0x302, 0x303].map t.readByte = [1, 2, 3, 0] ∧ t.idx = 0x300) = true := by decide

/-- M18 -/
theorem test_storeRegs_font :
    ran { (((start 0xF155).setReg 0 0xAA).setReg 1 0xBB) with idx := 0xFFF } (fun t => t.fault = some ⟨.fontWrite, 0x200, 0xF155⟩ ∧ t.readByte 0xFFF = 0) = true := by decide

/-- M19 -/
theorem test_loadRegs :
    ran (start 0xF465) (fun t => t.v.toList.take 6 = [0xF0, 0x90, 0x90, 0x90, 0xF0, 0] ∧ t.idx = 0) = true := by decide

/-- M20 -/
theorem test_loadRegs_wraps :
    ran { ((start 0xF165).putByte 0xFFF 0xAB) with idx := 0xFFF } (fun t => t.v[(0 : Reg)] = 0xAB ∧ t.v[(1 : Reg)] = 0xF0) = true := by decide

/-! ## The parameters at their other values (spec/00_scope.md R7) -/

/-- R17, D25: any 80 bytes -/
theorem test_font_is_a_parameter :
    ran { (startOther 0xF165) with idx := 0x04F } (fun t => t.v[(0 : Reg)] = 0x3C ∧ t.v[(1 : Reg)] = 0x00) = true := by decide

/-- D8: the source is V[Y] -/
theorem test_shift_source_vy :
    ran (((startOther 0x8126).setReg 1 0x04).setReg 2 0x09) (fun t => t.v[(1 : Reg)] = 0x04 ∧ t.v[(2 : Reg)] = 0x09 ∧ t.v[(15 : Reg)] = 0x01) = true := by decide

/-- D13: the offset is V[3] -/
theorem test_jump_offset_vx : ran ((startOther 0xB345).setReg 3 0x07) (fun t => t.pc = 0x34C) = true := by decide

/-- D17 -/
theorem test_key_pick_highest : ran { (startOther 0xF30A) with keys := 0x0108 } (fun t => t.v[(3 : Reg)] = 0x08) = true := by decide

/-- D14: the next address after the last byte -/
theorem test_increments_I :
    ran { (startOther 0xF265) with idx := 0xFFE } (fun t => t.idx = 0x001 ∧ t.v[(2 : Reg)] = 0x3C) = true := by decide

/-- D21, R36: the byte in the font block is dropped -/
theorem test_font_write_ignore :
    ran { (((startOther 0xF155).setReg 0 0xAA).setReg 1 0xBB) with idx := 0x04F } (fun t => t.fault = none ∧ [0x04F, 0x050].map t.readByte = [0x3C, 0xBB]) = true := by decide

/-- D21, R36: the font block is ordinary memory -/
theorem test_font_write_write :
    ran { { startOther 0xF033 with idx := 0x000 } with params := { otherParams with fontWritePolicy := .write } } (fun t => t.fault = none ∧ [0x000, 0x001, 0x003].map t.readByte = [0, 0, 0x3C]) = true := by decide

/-! ## What the host reads -/

/-- R18: the linear cell index is `y*64 + x`. -/
theorem test_display_is_row_major :
    ({ State.reset with disp := oneCell 1 2 } : State).displayCell 66 = true ∧
      ({ State.reset with disp := oneCell 1 2 } : State).displayCell 33 = false := by decide

/-! ## The host's side (spec/70_reset_and_hazards.md) -/

/-- S3 -/
theorem test_rom_load :
    (match hostStep (.romLoad [0x60, 0x00]) State.reset with
      | .next (t, r) => decide (t.pc = 0x200 ∧ t.readByte 0x200 = 0x60 ∧ t.readByte 0x201 = 0x00 ∧ r = .done)
      | .fault _ => false
      | .refused _ => false) = true := by decide

theorem test_rom_load_twice_refused :
    (match hostRun [.romLoad [0x60], .romLoad [0x61]] State.reset with
      | .next _ => none
      | .fault _ => none
      | .refused r => some r) = some .romLoadNotAllowed := by decide

/-! ## Witnesses: a concrete input that meets the hypotheses of each statement, for each of its clauses -/

/-- A state whose `I`, registers and faults sit at a boundary of the store rules. -/
def storing (w : InsnWord) (idx : Addr) : State := { start w with idx := idx }

theorem witness_DecodeInvertsEncode :
    (Instr.sys 0xFFF).wf = true ∧ (Instr.drw 15 15 15).wf = true ∧ (Instr.rnd 0 0).wf = true := by decide

theorem witness_EncodeInvertsDecode : decode 0xFF65 = .ok (.loadRegs 15) ∧ decode 0x0000 = .ok (.sys 0) := by decide

theorem witness_DecoderFollowsOpcodeMap :
    decode 0x00E1 = .ok (.sys 0x0E1) ∧ opcodeRow (.sys 0x0E1) = sysRow ∧ decode 0x00E0 = .ok .cls ∧
      decode 0x8008 = .error .family8LowNibble := by decide

theorem witness_FetchIsBigEndianAndWraps :
    (0x000 : Addr).toNat = ((0xFFF : Addr).toNat + 1) % 4096 ∧ (0x202 : Addr).toNat = ((0x201 : Addr).toNat + 1) % 4096 := by
  decide

theorem witness_StepRunsDecodedInstruction :
    (start 0x6A2F).fault = none ∧ decode ((start 0x6A2F).readByte 0x200 ++ (start 0x6A2F).readByte 0x201) = .ok (.ldImm 10 0x2F) ∧
      exec (.ldImm 10 0x2F) { start 0x6A2F with pc := 0x202 } = .next ({ start 0x6A2F with pc := 0x202 }.setReg 10 0x2F) :=
  ⟨rfl, by decide, rfl⟩

/-- A cycle without a fault. -/
theorem witness_TimersTickAtCycleEnd :
    (start 0x6A2F).fault = none ∧ ∃ t, Executes (start 0x6A2F) t ∧ t.fault = none :=
  ⟨rfl, _, .inl ⟨.ldImm 10 0x2F, by decide, rfl⟩, rfl⟩

/-- A cycle of a word that no row matches. -/
theorem witness_TimersTickAtCycleEnd_unmapped :
    (start 0x5121).fault = none ∧ ∃ t, Executes (start 0x5121) t ∧ t.fault = none :=
  ⟨rfl, _, .inr ⟨⟨.family5LowNibble, by decide⟩, rfl⟩, rfl⟩

/-- A cycle with a fault. -/
theorem witness_TimersTickAtCycleEnd_fault :
    (start 0x00EE).fault = none ∧ ∃ t, Executes (start 0x00EE) t ∧ t.fault ≠ none :=
  ⟨rfl, _, .inl ⟨.ret, by decide, rfl⟩, by decide⟩

theorem witness_UnmappedWordsAreNoOps :
    (start 0xF130).fault = none ∧ decode (wordAtPc (start 0xF130)) = .error .familyFLowByte ∧
      decode (wordAtPc (start 0x0123)) = .ok (.sys 0x123) := by decide

theorem witness_FaultingCycleIsPrecise :
    ∃ t, (start 0xF033).fault = none ∧ step (start 0xF033) = .next t ∧ t.fault = some ⟨.fontWrite, 0x200, 0xF033⟩ :=
  ⟨_, rfl, step_eq_after (p := fun _ => true) (by decide), by decide⟩

/-- Each clause of the fault table on both sides of its boundary. -/
theorem witness_FaultsExactlyUnderTheirConditions :
    faultCondition (.call 0x300) { State.reset with sp := 15 } = none ∧
      faultCondition (.call 0x300) { State.reset with sp := 16 } = some .stackOverflow ∧
      faultCondition .ret { State.reset with sp := 1 } = none ∧ faultCondition .ret State.reset = some .stackUnderflow ∧
      faultCondition (.ldB 0) { State.reset with idx := 0x04F } = some .fontWrite ∧
      faultCondition (.ldB 0) { State.reset with idx := 0x050 } = none ∧
      faultCondition (.ldB 0) { State.reset with idx := 0xFFD } = none ∧
      faultCondition (.ldB 0) { State.reset with idx := 0xFFE } = some .fontWrite ∧
      faultCondition (.storeRegs 15) { State.reset with idx := 0xFF0 } = none ∧
      faultCondition (.storeRegs 15) { State.reset with idx := 0xFF1 } = some .fontWrite ∧
      faultCondition (.storeRegs 15) { State.resetWith otherParams with idx := 0x000 } = none ∧
      faultCondition (.loadRegs 15) State.reset = none := by decide

theorem witness_FaultsExactlyUnderTheirConditions_step :
    ∃ t, (start 0x00EE).fault = none ∧ step (start 0x00EE) = .next t :=
  ⟨_, rfl, step_eq_after (p := fun _ => true) (by decide)⟩

theorem witness_SysChangesNothing : (0x0E1 : Addr) ≠ 0x0E0 ∧ (0x0E1 : Addr) ≠ 0x0EE := by decide

theorem witness_CallPushesReturnAddress :
    ({ start 0x2300 with sp := 15 } : State).sp.val < 16 ∧ ({ start 0x2300 with sp := 16 } : State).sp.val = 16 := by decide

/-- A machine with each value of JUMP_OFFSET_REG. -/
theorem witness_JumpV0AddsV0 :
    State.reset.params.jumpOffsetReg = .v0 ∧ (State.resetWith otherParams).params.jumpOffsetReg = .vx := by decide

theorem witness_ReturnPopsPc :
    0 < ({ start 0x00EE with sp := 1 } : State).sp.val ∧ 0 < ({ start 0x00EE with sp := 16 } : State).sp.val ∧
      (start 0x00EE).sp.val = 0 := by decide

theorem witness_ReturnUndoesCall :
    ∃ t u : State, ({ start 0x2300 with sp := 15 } : State).sp.val < 16 ∧
      exec (.call 0x300) { start 0x2300 with sp := 15 } = .next t ∧ u.stack = t.stack ∧ u.sp = t.sp :=
  ⟨_, _, by decide, rfl, rfl, rfl⟩

/-- Each of the six skips, with its condition true. -/
theorem witness_SkipsAdvanceByFour :
    (start 0x3000).fault = none ∧
      (decode (wordAtPc (start 0x3000)) = .ok (.seImm 0 0) ∧ true = decide ((start 0x3000).v[(0 : Reg)] = 0)) ∧
      (decode (wordAtPc (start 0x4001)) = .ok (.sneImm 0 1) ∧ true = decide ((start 0x4001).v[(0 : Reg)] ≠ 1)) ∧
      (decode (wordAtPc (start 0x5120)) = .ok (.seReg 1 2) ∧
        true = decide ((start 0x5120).v[(1 : Reg)] = (start 0x5120).v[(2 : Reg)])) ∧
      (decode (wordAtPc ((start 0x9120).setReg 1 1)) = .ok (.sneReg 1 2) ∧
        true = decide (((start 0x9120).setReg 1 1).v[(1 : Reg)] ≠ ((start 0x9120).setReg 1 1).v[(2 : Reg)])) ∧
      (decode (wordAtPc { start 0xE09E with keys := 1 }) = .ok (.skp 0) ∧
        true = ({ start 0xE09E with keys := 1 } : State).keys.getLsbD ((start 0xE09E).v[(0 : Reg)].toNat % 16)) ∧
      (decode (wordAtPc (start 0xE0A1)) = .ok (.sknp 0) ∧
        true = !(start 0xE0A1).keys.getLsbD ((start 0xE0A1).v[(0 : Reg)].toNat % 16)) := by decide

/-- Each of the six skips, with its condition false. -/
theorem witness_SkipsAdvanceByFour_not :
    (decode (wordAtPc (start 0x3001)) = .ok (.seImm 0 1) ∧ false = decide ((start 0x3001).v[(0 : Reg)] = 1)) ∧
      (decode (wordAtPc (start 0x4000)) = .ok (.sneImm 0 0) ∧ false = decide ((start 0x4000).v[(0 : Reg)] ≠ 0)) ∧
      (decode (wordAtPc ((start 0x5120).setReg 1 1)) = .ok (.seReg 1 2) ∧
        false = decide (((start 0x5120).setReg 1 1).v[(1 : Reg)] = ((start 0x5120).setReg 1 1).v[(2 : Reg)])) ∧
      (decode (wordAtPc (start 0x9120)) = .ok (.sneReg 1 2) ∧
        false = decide ((start 0x9120).v[(1 : Reg)] ≠ (start 0x9120).v[(2 : Reg)])) ∧
      (decode (wordAtPc (start 0xE09E)) = .ok (.skp 0) ∧
        false = (start 0xE09E).keys.getLsbD ((start 0xE09E).v[(0 : Reg)].toNat % 16)) ∧
      (decode (wordAtPc { start 0xE0A1 with keys := 1 }) = .ok (.sknp 0) ∧
        false = !({ start 0xE0A1 with keys := 1 } : State).keys.getLsbD ((start 0xE0A1).v[(0 : Reg)].toNat % 16)) := by
  decide

/-- A sprite that meets a lit cell, and one that meets none. -/
theorem witness_DrawXorsSpriteAndSetsCollision :
    (spritePixel 1 2 5 { State.reset with disp := oneCell 0 0 } 0 0 = true ∧ (oneCell 0 0)[(0 : Fin 32)][(0 : Fin 64)] = true) ∧
      ∀ (row : Fin 32) (col : Fin 64), spritePixel 1 2 0 State.reset row col = true →
        State.reset.disp[row][col] = false :=
  ⟨by decide, fun row col h => by
    simp only [spritePixel, Bool.and_eq_true, decide_eq_true_eq] at h
    have := h.1.2.1
    have := h.1.1
    simp at *
    omega⟩

/-- Cells on each side of the rectangle: above, below, left and right of it. -/
theorem witness_DrawStaysInRectangleAndCountsBits :
    ∃ t, exec (.drw 1 2 5) ((State.reset.setReg 1 0x3C).setReg 2 0x1E) = .next t ∧
      (0 : Fin 32).val < ((State.reset.setReg 1 0x3C).setReg 2 0x1E).v[(2 : Reg)].toNat % 32 ∧
      State.reset.v[(2 : Reg)].toNat % 32 + (5 : Height).val ≤ (5 : Fin 32).val ∧
      (59 : Fin 64).val < ((State.reset.setReg 1 0x3C).setReg 2 0x1E).v[(1 : Reg)].toNat % 64 ∧
      State.reset.v[(1 : Reg)].toNat % 64 + 8 ≤ (8 : Fin 64).val :=
  ⟨_, rfl, by decide⟩

theorem witness_DrawTwiceRestoresDisplay :
    ∃ t u w : State, (1 : Reg) ≠ 15 ∧ (2 : Reg) ≠ 15 ∧ exec (.drw 1 2 5) State.reset = .next t ∧ u.disp = t.disp ∧
      u.idx = t.idx ∧ u.mem = t.mem ∧ u.params = t.params ∧ u.v[(1 : Reg)] = t.v[(1 : Reg)] ∧ u.v[(2 : Reg)] = t.v[(2 : Reg)] ∧
      exec (.drw 1 2 5) u = .next w :=
  ⟨_, _, _, by decide, by decide, rfl, rfl, rfl, rfl, rfl, rfl, rfl, rfl⟩

/-- No key down; keys 0 and 15 down, under each value of KEY_PICK that names one. -/
theorem witness_KeyReadTakesLowestKeyOrRepeats :
    State.reset.keys = 0 ∧ ({ State.reset with keys := 0x8001 } : State).keys ≠ 0 ∧
      State.reset.params.keyPick = .lowest ∧ (State.resetWith otherParams).params.keyPick = .highest := by decide

theorem witness_KeyWaitPollsWhileTimersRun :
    (start 0xF30A).fault = none ∧ decode (wordAtPc (start 0xF30A)) = .ok (.ldVxK 3) := by decide

theorem witness_TimerWrittenIsTickedInItsCycle :
    (start 0xF415).fault = none ∧ decode (wordAtPc (start 0xF415)) = .ok (.ldDtVx 4) ∧
      decode (wordAtPc (start 0xF418)) = .ok (.ldStVx 4) := by decide

/-- A run of one cycle that executes no FX15. -/
theorem witness_DelayTimerCountsCycles :
    ∃ t, runCycles [(0, 0)] { start 0x6A2F with dt := 1 } = .next t ∧ t.fault = none ∧
      ∀ (pre post : List (Keys × Byte)) (u : State), [((0 : Keys), (0 : Byte))] = pre ++ post → post ≠ [] →
        runCycles pre { start 0x6A2F with dt := 1 } = .next u → NoDelayWrite u := by
  have h : runCycles [(0, 0)] { start 0x6A2F with dt := 1 } =
      .next (after { start 0x6A2F with dt := 1, keys := 0, rnd := 0 }) := by
    have hs := step_eq_after (s := { start 0x6A2F with dt := 1, keys := 0, rnd := 0 }) (p := fun _ => true) (by decide)
    simp only [runCycles, cycleWith]
    rw [hs]
  refine ⟨_, h, by decide, fun pre post u hl hp hr => ?_⟩
  cases pre with
  | nil =>
    cases hr
    show ∀ x, _
    decide
  | cons p pre =>
    simp at hl
    exact absurd hl.2.2 hp

/-- Both sides of each boundary: I = 0x050 and 0xFFD store, I = 0x04F and 0xFFE fault, and drop under `ignore`. -/
theorem witness_BcdStoresThreeDigits :
    ¬ storeFaults (storing 0xF033 0x050) 3 ∧ ¬ storeFaults (storing 0xF033 0xFFD) 3 ∧
      storeFaults (storing 0xF033 0x04F) 3 ∧ storeFaults (storing 0xF033 0xFFE) 3 ∧
      ¬ storeFaults { startOther 0xF033 with idx := 0x04F } 3 ∧ storeDropped (startOther 0xF033) 0x04F ∧
      ¬ storeDropped (startOther 0xF033) 0x050 := by decide

/-- Both sides of each boundary: FF55 at 0xFF0 and F055 at 0x050 store, FF55 at 0xFF1 and F055 at 0x04F fault, and drop
under `ignore`. -/
theorem witness_BlockStoreWritesV0ToVx :
    ¬ storeFaults (storing 0xFF55 0xFF0) 16 ∧ ¬ storeFaults (storing 0xF055 0x050) 1 ∧
      storeFaults (storing 0xFF55 0xFF1) 16 ∧ storeFaults (storing 0xF055 0x04F) 1 ∧
      ¬ storeFaults { startOther 0xF055 with idx := 0x04F } 1 ∧ storeDropped (startOther 0xF055) 0x04F ∧
      ¬ storeDropped (startOther 0xF055) 0xFFF := by decide

theorem witness_BlockStoreLoadRoundTrip :
    ∃ t u : State, (storing 0xF255 0x300).fault = none ∧ exec (.storeRegs 2) (storing 0xF255 0x300) = .next t ∧
      t.fault = none ∧
      (∀ k : Reg, k ≤ 2 → ¬ storeDropped (storing 0xF255 0x300) ((storing 0xF255 0x300).idx + BitVec.ofNat 12 k.val)) ∧
      u.params = (storing 0xF255 0x300).params ∧ u.mem = t.mem ∧ u.idx = (storing 0xF255 0x300).idx :=
  ⟨_, { storing 0xF255 0x300 with mem := _ }, rfl, rfl, by decide, by decide, rfl, rfl, rfl⟩

theorem witness_StoredBytesAreFetchedNext :
    ∃ t, (storing 0xF155 0x202).fault = none ∧ decode (wordAtPc (storing 0xF155 0x202)) = .ok (.storeRegs 1) ∧
      1 ≤ (1 : Reg).val ∧ (storing 0xF155 0x202).idx = (storing 0xF155 0x202).pc + 2 ∧
      ¬ storeDropped (storing 0xF155 0x202) 0x202 ∧ ¬ storeDropped (storing 0xF155 0x202) (0x202 + 1) ∧
      step (storing 0xF155 0x202) = .next t ∧ t.fault = none :=
  ⟨_, rfl, by decide, by decide, rfl, by decide, by decide, step_eq_after (p := fun _ => true) (by decide), by decide⟩

theorem witness_PlacedWordIsFetched :
    65535 < 65536 ∧ (0x202 : Addr) ≠ State.reset.pc ∧ (0x202 : Addr) ≠ State.reset.pc + 1 := by decide

/-- The last address of the font block and the first one after it. -/
theorem witness_ResetValues : (0x04F : Addr).toNat < 80 ∧ ¬ (0x050 : Addr).toNat < 80 := by decide

theorem witness_OnlyResetLeavesTheFaultedState :
    ∃ (t : State) (r : HostReply), ({ State.reset with fault := some ⟨.stackOverflow, 0x200, 0x2200⟩ } : State).fault ≠ none ∧
      hostStep .reset { State.reset with fault := some ⟨.stackOverflow, 0x200, 0x2200⟩ } = .next (t, r) ∧ t.fault = none :=
  ⟨_, _, by decide, rfl, rfl⟩

/-- The longest image, one byte more, and a load after the first cycle. -/
theorem witness_RomLoadDepositsTheImage :
    State.reset.boot = .fresh ∧ (List.replicate 3584 (0 : Byte)).length ≤ 3584 ∧
      3584 < (List.replicate 3585 (0 : Byte)).length ∧ ({ State.reset with boot := .running } : State).boot ≠ .fresh :=
  ⟨rfl, by rw [List.length_replicate], by rw [List.length_replicate]; decide, by decide⟩

theorem witness_EndedRunStaysEnded : (start 0x1200).ended := ⟨rfl, by decide⟩

/-- A state other than the reset state with the invariant, a ROM byte stored in it. -/
theorem witness_StepKeepsInvariant : (start 0x1200).Inv ∧ ∃ t, step (start 0x1200) = .next t := by
  refine ⟨⟨by decide, fun _ a ha => ?_, fun h => absurd rfl h⟩, _, step_eq_after (p := fun _ => true) (by decide)⟩
  show ((State.reset.putByte 0x200 0x12).putByte 0x201 0x00).readByte a = _
  rw [State.readByte_putByte, State.readByte_putByte, if_neg (by simp only [Config.fontLen] at ha; bv_omega),
    if_neg (by simp only [Config.fontLen] at ha; bv_omega)]
  rfl

/-- A machine whose font block a program has written, under FONT_WRITE_POLICY = write. -/
theorem witness_StepKeepsInvariant_write :
    ({ State.resetWith { otherParams with fontWritePolicy := .write } with mem := [(0, 0x12), (1, 0x00)] } : State).Inv ∧
      ¬ ({ State.resetWith { otherParams with fontWritePolicy := .write } with mem := [(0, 0x12), (1, 0x00)] } : State).fontIntact :=
  ⟨⟨by decide, fun h => absurd rfl h, fun h => absurd rfl h⟩, fun h => absurd (h 0 (by decide)) (by decide)⟩

theorem witness_EveryCycleAnswers :
    (start 0x1200).fault = none ∧ (faulted (start 0x1200)).fault = some ⟨.fontWrite, 0x1FE, 0xF033⟩ := by decide

theorem witness_HostRunKeepsInvariant :
    (start 0x1200).Inv ∧ ∃ t, hostRun [.setKeys 0x0001, .cycle 0x55, .reset, .romLoad [0x12, 0x00]] (start 0x1200) = .next t := by
  have hs := step_eq_after (s := { start 0x1200 with keys := 0x0001, rnd := 0x55 }) (p := fun _ => true) (by decide)
  have hc := State.requestCycle_of_step (s := { start 0x1200 with keys := 0x0001 }) (rnd := 0x55) rfl hs
  refine ⟨witness_StepKeepsInvariant.1, ?_⟩
  simp only [hostRun, hostStep]
  rw [hc]
  exact ⟨_, rfl⟩

theorem witness_WritesFollowAccessMatrix :
    ∃ t, exec (.call 0x300) (start 0x2300) = .next t ∧ Component.regs ∉ writes defaultParams (.call 0x300) ∧
      Component.idx ∉ writes defaultParams (.loadRegs 3) ∧ Component.idx ∈ writes otherParams (.loadRegs 3) :=
  ⟨_, rfl, by decide⟩

theorem witness_OnlyNamedRegistersAreWritten :
    ∃ t, exec (.addReg 1 2) (start 0x8124) = .next t ∧ writesReg (.addReg 1 2) 2 = false :=
  ⟨_, rfl, by decide⟩

theorem witness_InputsReachOnlyTheirReaders :
    ∃ t, exec (.addReg 1 2) (start 0x8124) = .next t ∧ readsKeys (.addReg 1 2) = false ∧
      (∀ x nn, Instr.addReg 1 2 ≠ .rnd x nn) ∧ ∀ x, Instr.addReg 1 2 ≠ .ldStVx x :=
  ⟨_, rfl, rfl, (fun _ _ h => by cases h), (fun _ h => by cases h)⟩

theorem witness_FontWritePolicies :
    [(0xAA : Byte), 0xBB].length ≤ 16 ∧
      (∃ k < [(0xAA : Byte), 0xBB].length, ((0x04F : Addr).toNat + k) % 4096 ≤ 0x04F) ∧
      ∀ k < [(0xAA : Byte), 0xBB].length, 0x04F < ((0x050 : Addr).toNat + k) % 4096 := by decide

end Sys2Proof.Tests
end

section
/-!
PROOFS. The scope (spec/00_scope.md): the three values of FONT_WRITE_POLICY.
-/

namespace Sys2Proof.Machine

/-- R36, R156: under `fault` a store that touches the font block raises FontWrite, and nothing it would have done
happens. -/
theorem State.storeAtI_eq_raise (w : InsnWord) (bs : List Byte) (after : State → State) (s : State)
    (h : touchesFont s.idx bs.length = true) : s.storeAtI .fault w bs after = s.raise .fontWrite w := by
  obtain ⟨_, hraise⟩ | ⟨hno, _⟩ := State.storeAtI_cases .fault w bs after s
  · exact hraise
  · exact absurd ⟨rfl, h⟩ hno

/-- R35, R36: a store that raises nothing performs its byte stores and then what follows them. -/
theorem State.storeAtI_eq_storeBytes (policy : Config.FontWritePolicy) (w : InsnWord) (bs : List Byte)
    (after : State → State) (s : State) (h : ¬(policy = .fault ∧ touchesFont s.idx bs.length = true)) :
    s.storeAtI policy w bs after = after (s.storeBytes policy s.idx bs) := by
  obtain ⟨hyes, _⟩ | ⟨_, hstores⟩ := State.storeAtI_cases policy w bs after s
  · exact absurd hyes h
  · exact hstores

/-- The bytes of memory after a store at `I` that raises nothing: `ignore` alone leaves the font block out (R36). -/
theorem State.readByte_storeAtI (policy : Config.FontWritePolicy) (w : InsnWord) (bs : List Byte) (s : State) (a : Addr)
    (hlen : bs.length ≤ 4096) (h : ¬(policy = .fault ∧ touchesFont s.idx bs.length = true)) :
    (s.storeAtI policy w bs id).readByte a =
      if policy = .ignore ∧ a.toNat ≤ 0x04F then s.readByte a else bs.getD (a - s.idx).toNat (s.readByte a) := by
  rw [State.storeAtI_eq_storeBytes policy w bs id s h]
  exact State.readByte_storeBytes policy bs s.idx a s hlen

/-- `touchesFont_iff` from the other side: a store whose addresses all lie past the font block does not touch it. -/
theorem not_touchesFont_of_forall {a : Addr} {n : Nat} (h : ∀ k < n, 0x04F < (a.toNat + k) % 4096) :
    ¬ touchesFont a n = true := by
  rw [touchesFont_iff]
  rintro ⟨k, hk, hle⟩
  exact absurd hle (Nat.not_le_of_lt (h k hk))

/-- Settles O55: only `fault` can raise, and the bytes of a store that raises nothing are those of
`State.readByte_storeAtI`. -/
theorem fontWritePolicies : Obligations.FontWritePolicies := by
  unfold Obligations.FontWritePolicies
  intro w bs s a hlen
  have hlen' : bs.length ≤ 4096 := by omega
  refine ⟨?write, ?ignore, ?raises, ?lands⟩
  case write => simpa using State.readByte_storeAtI .write w bs s a hlen' (by simp)
  case ignore => simpa using State.readByte_storeAtI .ignore w bs s a hlen' (by simp)
  case raises =>
    intro h
    exact State.storeAtI_eq_raise w bs id s ((touchesFont_iff s.idx bs.length).mpr h)
  case lands =>
    intro h
    have hno : ¬ touchesFont s.idx bs.length = true := not_touchesFont_of_forall h
    simpa using State.readByte_storeAtI .fault w bs s a hlen' (fun hf => hno hf.2)

end Sys2Proof.Machine
end

section
/-!
PROOFS. The state (spec/10_state.md): the invariant of the machine, at reset and along every step.
-/

namespace Sys2Proof.Machine

/-! ## The invariant from the fields it speaks of -/

/-- The font is intact in every state with the memory and the parameters of one whose font is. -/
theorem State.fontIntact.congr {s t : State} (hs : s.fontIntact) (hmem : t.mem = s.mem)
    (hparams : t.params = s.params) : t.fontIntact := by
  intro a ha
  rw [State.readByte_congr hparams hmem, hparams]
  exact hs a ha

/-- Memory and parameters carry the first two clauses of the invariant; silence has to be shown anew. -/
theorem State.Inv.of_silent {s t : State} (hs : s.Inv) (hmem : t.mem = s.mem) (hparams : t.params = s.params)
    (hsilent : t.fault ≠ none → t.beep = false) : t.Inv where
  memCanonical := by
    rw [hmem, hparams]
    exact hs.memCanonical
  fontIntact := by
    rw [hparams]
    exact fun hpolicy => (hs.fontIntact hpolicy).congr hmem hparams
  faultSilent := hsilent

/-- The invariant depends on four fields only. -/
theorem State.Inv.congr {s t : State} (hs : s.Inv) (hmem : t.mem = s.mem) (hparams : t.params = s.params)
    (hfault : t.fault = s.fault) (hbeep : t.beep = s.beep) : t.Inv :=
  hs.of_silent hmem hparams (by rw [hfault, hbeep]; exact hs.faultSilent)

/-! ## The operations keep the invariant -/

/-- R72: taking a fault silences the beep. -/
theorem State.Inv.raise {s : State} (hs : s.Inv) (k : FaultKind) (w : InsnWord) : (s.raise k w).Inv :=
  hs.of_silent rfl rfl fun _ => rfl

theorem State.Inv.skipIf {s : State} (hs : s.Inv) (c : Bool) : (s.skipIf c).Inv := by
  rw [State.skipIf_eq]
  exact hs.congr rfl rfl rfl rfl

theorem State.Inv.bumpIdx {s : State} (hs : s.Inv) (increments : Bool) (x : Reg) : (s.bumpIdx increments x).Inv := by
  rw [State.bumpIdx_eq]
  exact hs.congr rfl rfl rfl rfl

theorem State.Inv.loadFromI {s : State} (hs : s.Inv) (x : Reg) : (s.loadFromI (x.val + 1)).Inv := by
  rw [State.loadFromI_frame]
  exact hs.congr rfl rfl rfl rfl

theorem State.Inv.pushAndJump {s : State} (hs : s.Inv) (w : InsnWord) (a target : Addr) :
    (s.push w a (State.setPc target)).Inv := by
  obtain ⟨_, hpush⟩ | ⟨_, hraise⟩ := State.push_cases w a (State.setPc target) s
  · rw [hpush]
    exact hs.congr rfl rfl rfl rfl
  · rw [hraise]
    exact hs.raise _ w

theorem State.Inv.popPc {s : State} (hs : s.Inv) (w : InsnWord) : (s.popPc w).Inv := by
  obtain ⟨_, hpop⟩ | ⟨_, hraise⟩ := State.popPc_cases w s
  · rw [hpop]
    exact hs.congr rfl rfl rfl rfl
  · rw [hraise]
    exact hs.raise _ w

/-- An address of the font block is none of those of a store that does not touch it (R36). -/
theorem length_le_of_not_touchesFont {start a : Addr} {n : Nat} (hno : ¬ touchesFont start n = true)
    (ha : a.toNat < Config.fontLen) : n ≤ (a - start).toNat := by
  by_contra hlt
  refine hno ((touchesFont_iff start n).mpr ⟨(a - start).toNat, by omega, ?_⟩)
  have hwrap : (start.toNat + (a - start).toNat) % 4096 = a.toNat := by bv_omega
  rw [hwrap]
  exact Nat.le_of_lt_succ ha

/-- R36: byte stores that the policy allows leave the font block alone, unless the policy is `write`. -/
theorem State.readByte_storeBytes_font {policy : Config.FontWritePolicy} {bs : List Byte} {s : State} {a : Addr}
    (hlen : bs.length ≤ 4096) (hpolicy : policy ≠ .write)
    (hno : ¬(policy = .fault ∧ touchesFont s.idx bs.length = true)) (ha : a.toNat < Config.fontLen) :
    (s.storeBytes policy s.idx bs).readByte a = s.readByte a := by
  rw [State.readByte_storeBytes policy bs s.idx a s hlen]
  cases policy with
  | fault =>
    have hpast : bs.length ≤ (a - s.idx).toNat := length_le_of_not_touchesFont (fun ht => hno ⟨rfl, ht⟩) ha
    rw [if_neg (by simp), List.getD_eq_default _ _ hpast]
  | ignore => exact if_pos ⟨rfl, Nat.le_of_lt_succ ha⟩
  | write => exact absurd rfl hpolicy

theorem State.storeBytes_params (policy : Config.FontWritePolicy) (bs : List Byte) (a : Addr) (s : State) :
    (s.storeBytes policy a bs).params = s.params := by
  rw [State.storeBytes_frame]

/-- The byte stores of an instruction that does not raise FontWrite keep the invariant. -/
theorem State.Inv.storeBytes {s : State} (hs : s.Inv) {bs : List Byte} (hlen : bs.length ≤ 4096)
    (hno : ¬(s.params.fontWritePolicy = .fault ∧ touchesFont s.idx bs.length = true)) :
    (s.storeBytes s.params.fontWritePolicy s.idx bs).Inv where
  memCanonical := by
    rw [State.storeBytes_params]
    exact State.wf_storeBytes _ bs s.idx s hs.memCanonical
  fontIntact := by
    rw [State.storeBytes_params]
    intro hpolicy a ha
    rw [State.readByte_storeBytes_font hlen hpolicy hno ha, State.storeBytes_params]
    exact hs.fontIntact hpolicy a ha
  faultSilent := by
    rw [State.storeBytes_frame]
    exact hs.faultSilent

/-- The stores of an instruction keep the invariant when what follows them does. -/
theorem State.Inv.storeAtI {s : State} (hs : s.Inv) (w : InsnWord) {bs : List Byte} (hlen : bs.length ≤ 4096)
    {after : State → State} (hafter : ∀ u : State, u.Inv → (after u).Inv) :
    (s.storeAtI s.params.fontWritePolicy w bs after).Inv := by
  obtain ⟨_, hraise⟩ | ⟨hno, hstores⟩ := State.storeAtI_cases s.params.fontWritePolicy w bs after s
  · rw [hraise]
    exact hs.raise .fontWrite w
  · rw [hstores]
    exact hafter _ (hs.storeBytes hlen hno)

/-! ## The phases of the cycle keep the invariant -/

/-- R128: `FX0A` goes back to itself or writes `V[X]`, and nothing else. -/
theorem exec_ldVxK_cases {x : Reg} {s t : State} (h : exec (.ldVxK x) s = .next t) :
    t = s.setPc (s.pc - Config.insnBytes) ∨ ∃ k, t = s.setReg x (BitVec.ofNat 8 k) := by
  change execLdVxK x s = .next t at h
  unfold execLdVxK at h
  split at h
  · exact .inl (Host.Outcome.next.inj h).symm
  · exact .inr ⟨_, (Host.Outcome.next.inj h).symm⟩

/-- The execute phase keeps the invariant: two instructions store, and their stores obey the policy; every other one
leaves memory alone and either keeps the latch and the beep or raises a fault. -/
theorem exec_preserves_inv {i : Instr} {s t : State} (hs : s.Inv) (h : exec i s = .next t) : t.Inv := by
  cases i
  case ldVxK => obtain rfl | ⟨_, rfl⟩ := exec_ldVxK_cases h <;> exact hs.congr rfl rfl rfl rfl
  all_goals obtain rfl := Host.Outcome.next.inj h
  case ret => exact hs.popPc _
  case call => exact hs.pushAndJump _ _ _
  case seImm | sneImm | seReg | sneReg | skp | sknp => exact hs.skipIf _
  case ldB => exact hs.storeAtI _ (by simp) fun _ hu => hu
  case storeRegs => exact hs.storeAtI _ (by rw [State.length_regsUpTo]; omega) fun _ hu => hu.bumpIdx _ _
  case loadRegs => exact (hs.loadFromI _).bumpIdx _ _
  all_goals exact hs.congr rfl rfl rfl rfl

/-- R72: the end of a faulting cycle ticks nothing, so its beep stays silent. -/
theorem State.Inv.endCycle {s : State} (hs : s.Inv) : s.endCycle.Inv := by
  have hframe := s.endCycle_frame
  refine hs.of_silent (by rw [hframe]) (by rw [hframe]) fun hfault => ?_
  have hlatched : s.fault ≠ none := by rwa [hframe] at hfault
  rw [State.endCycle_of_fault hlatched]
  exact hs.faultSilent hlatched

/-- Settles O50: by `step_cases` a step is the advance, the execute phase of the fetched word, and the end of the
cycle, and each of them keeps the invariant. -/
theorem stepKeepsInvariant : Obligations.StepKeepsInvariant := by
  unfold Obligations.StepKeepsInvariant
  intro s t hs hstep
  have hadvanced : s.advance.Inv := hs.congr rfl rfl rfl rfl
  obtain ⟨_, u, rfl, ⟨i, _, hexec⟩ | ⟨e, _, rfl⟩⟩ := step_cases hstep
  · exact (exec_preserves_inv hadvanced hexec).endCycle
  · exact hadvanced.endCycle

/-! ## After reset -/

/-- The invariant after reset: no cell is listed, so every byte is its reset content, and no fault is latched. -/
theorem State.resetWith_inv (p : Config.Params) : (State.resetWith p).Inv where
  memCanonical := Memory.wf_nil
  fontIntact := fun _ _ _ => rfl
  faultSilent := fun _ => rfl

/-- Settles O49: `State.reset` is one of the states `State.resetWith` gives. -/
theorem invariantHoldsAtReset : Obligations.InvariantHoldsAtReset :=
  ⟨State.resetWith_inv, State.resetWith_inv defaultParams⟩

/-- R17, R24: a byte after reset, the machine's font below 0x050 and 0 from there on. -/
theorem State.readByte_resetWith (p : Config.Params) (a : Addr) :
    (State.resetWith p).readByte a = if h : a.toNat < 80 then p.font[a.toNat]'h else 0 := by
  change p.font.toList.getD a.toNat 0 = _
  split
  · rename_i h
    rw [List.getD_eq_getElem _ _ (by simpa using h), Vector.getElem_toList]
  · rename_i h
    exact List.getD_eq_default _ _ (by simpa using h)

/-- R17: the first 80 bytes after reset are the machine's font. -/
theorem State.readBytes_resetWith_font (p : Config.Params) :
    (List.range 80).map (fun k => (State.resetWith p).readByte (BitVec.ofNat 12 k)) = p.font.toList := by
  refine List.ext_getElem (by simp) fun k hk _ => ?_
  have hlt : k < 80 := by simpa using hk
  have hmod : k % 4096 = k := Nat.mod_eq_of_lt (by omega)
  simp [State.readByte_resetWith, hmod, hlt]

/-- Settles O45: the fields stand in `State.resetWith`, and memory is that of `State.readByte_resetWith`. -/
theorem resetValues : Obligations.ResetValues := by
  unfold Obligations.ResetValues
  refine ⟨fun p => ⟨?regs, rfl, rfl, rfl, ?stack, rfl, rfl, ?disp, rfl, rfl, rfl, State.readByte_resetWith p⟩,
    rfl, rfl, rfl, rfl, rfl, rfl, State.readBytes_resetWith_font defaultParams⟩
  case regs => simp [State.resetWith]
  case stack => simp [State.resetWith]
  case disp => simp [State.resetWith]

end Sys2Proof.Machine
end

section
/-!
PROOFS. The state (spec/10_state.md): what the execute phase writes and reads, against the access matrix R26; RET
against CALL.
-/

namespace Sys2Proof.Machine

open Sys2Proof.Claims

/-! ## Agreement outside a list of components -/

/-- Every component outside the list is the same in both states. -/
def SameOutside (cs : List Component) (s t : State) : Prop := ∀ c : Component, c ∉ cs → c.same s t

theorem SameOutside.trans {cs : List Component} {s t u : State} (hst : SameOutside cs s t) (htu : SameOutside cs t u) :
    SameOutside cs s u := by
  intro c hc
  have h := hst c hc
  have h' := htu c hc
  cases c <;> simp_all [Component.same]

theorem SameOutside.mono {cs ds : List Component} {s t : State} (hst : SameOutside cs s t) (hsub : cs ⊆ ds) :
    SameOutside ds s t :=
  fun c hc => hst c fun hmem => hc (hsub hmem)

theorem SameOutside.refl (s : State) : SameOutside [] s s := by
  intro c _
  cases c <;> simp [Component.same]

/-! ## Replacing one component leaves the others the same -/

theorem sameOutside_regs (s : State) (v : Vector Byte Config.nRegs) : SameOutside [.regs] s { s with v := v } := by
  intro c hc
  cases c <;> simp_all [Component.same]

theorem sameOutside_pc (s : State) (a : Addr) : SameOutside [.pc] s { s with pc := a } := by
  intro c hc
  cases c <;> simp_all [Component.same]

theorem sameOutside_idx (s : State) (a : Addr) : SameOutside [.idx] s { s with idx := a } := by
  intro c hc
  cases c <;> simp_all [Component.same]

theorem sameOutside_stack (s : State) (stack : Vector Addr Config.stackDepth) (sp : Fin 17) :
    SameOutside [.stack] s { s with stack := stack, sp := sp } := by
  intro c hc
  cases c <;> simp_all [Component.same]

theorem sameOutside_dt (s : State) (b : Byte) : SameOutside [.dt] s { s with dt := b } := by
  intro c hc
  cases c <;> simp_all [Component.same]

theorem sameOutside_st (s : State) (b : Byte) : SameOutside [.st] s { s with st := b } := by
  intro c hc
  cases c <;> simp_all [Component.same]

theorem sameOutside_mem (s : State) (m : Memory) : SameOutside [.mem] s { s with mem := m } := by
  intro c hc
  cases c <;> simp_all [Component.same]

theorem sameOutside_disp (s : State) (d : Display) : SameOutside [.disp] s { s with disp := d } := by
  intro c hc
  cases c <;> simp_all [Component.same]

/-! ## What each shared operation leaves the same -/

/-- R156: a fault writes none of the components. -/
theorem State.raise_sameOutside (s : State) (k : FaultKind) (w : InsnWord) : SameOutside [] s (s.raise k w) :=
  SameOutside.refl s

theorem State.skipIf_sameOutside (s : State) (c : Bool) : SameOutside [.pc] s (s.skipIf c) := by
  rw [State.skipIf_eq]
  exact sameOutside_pc s _

theorem State.loadFromI_sameOutside (s : State) (x : Reg) : SameOutside [.regs] s (s.loadFromI (x.val + 1)) := by
  rw [State.loadFromI_frame]
  exact sameOutside_regs s _

/-- R146: `I` moves only where LOADSTORE_INCREMENTS_I is set. -/
theorem State.bumpIdx_sameOutside (increments : Bool) (x : Reg) (s : State) :
    SameOutside (if increments then [.idx] else []) s (State.bumpIdx increments x s) := by
  cases increments
  · exact SameOutside.refl s
  · exact sameOutside_idx s _

/-- R36: a store raises a fault or writes memory, and then does what follows it. -/
theorem State.storeAtI_sameOutside {cs : List Component} (policy : Config.FontWritePolicy) (w : InsnWord)
    (bs : List Byte) (after : State → State) (s : State) (hafter : ∀ u : State, SameOutside cs u (after u)) :
    SameOutside (.mem :: cs) s (s.storeAtI policy w bs after) := by
  obtain ⟨_, hraise⟩ | ⟨_, hstores⟩ := State.storeAtI_cases policy w bs after s
  · rw [hraise]
    exact (s.raise_sameOutside .fontWrite w).mono (by simp)
  · have hstored : SameOutside [.mem] s (s.storeBytes policy s.idx bs) := by
      rw [State.storeBytes_frame]
      exact sameOutside_mem s _
    rw [hstores]
    exact (hstored.mono (by simp)).trans ((hafter _).mono (by simp))

theorem State.pushAndJump_sameOutside (s : State) (w : InsnWord) (a target : Addr) :
    SameOutside [.pc, .stack] s (s.push w a (State.setPc target)) := by
  obtain ⟨_, hpush⟩ | ⟨_, hraise⟩ := State.push_cases w a (State.setPc target) s
  · rw [hpush]
    exact ((sameOutside_stack s _ _).mono (by simp)).trans ((sameOutside_pc _ target).mono (by simp))
  · rw [hraise]
    exact (s.raise_sameOutside .stackOverflow w).mono (by simp)

theorem State.popPc_sameOutside (s : State) (w : InsnWord) : SameOutside [.pc, .stack] s (s.popPc w) := by
  obtain ⟨_, hpop⟩ | ⟨_, hraise⟩ := State.popPc_cases w s
  · rw [hpop]
    have hsp := (sameOutside_stack s s.stack ⟨s.sp.val - 1, by omega⟩).mono (ds := [.pc, .stack]) (by simp)
    exact hsp.trans ((sameOutside_pc _ _).mono (by simp))
  · rw [hraise]
    exact (s.raise_sameOutside .stackUnderflow w).mono (by simp)

/-! ## The access matrix -/

/-- The row of `FX55`: memory, and `I` where the block store moves it (R26, R146). -/
theorem writes_storeRegs (p : Config.Params) (x : Reg) :
    writes p (.storeRegs x) = .mem :: if p.loadStoreIncrementsI then [.idx] else [] := by
  cases h : p.loadStoreIncrementsI <;> simp [writes, h]

/-- The row of `FX65`: the registers, and `I` where the block load moves it (R26, R146). -/
theorem writes_loadRegs (p : Config.Params) (x : Reg) :
    writes p (.loadRegs x) = .regs :: if p.loadStoreIncrementsI then [.idx] else [] := by
  cases h : p.loadStoreIncrementsI <;> simp [writes, h]

/-- The frame of the execute phase: it changes nothing that the instruction's row of the matrix does not mark. The
instructions with no case of their own write registers alone. -/
theorem exec_sameOutside {i : Instr} {s t : State} (h : exec i s = .next t) : SameOutside (writes s.params i) s t := by
  cases i
  case ldVxK =>
    obtain rfl | ⟨_, rfl⟩ := exec_ldVxK_cases h
    · exact (sameOutside_pc s _).mono (by simp [writes])
    · exact (sameOutside_regs s _).mono (by simp [writes])
  all_goals obtain rfl := Host.Outcome.next.inj h
  case sys => exact SameOutside.refl s
  case cls => exact sameOutside_disp s _
  case ret => exact s.popPc_sameOutside _
  case call => exact s.pushAndJump_sameOutside _ _ _
  case jp | jpV0 => exact sameOutside_pc s _
  case seImm | sneImm | seReg | sneReg | skp | sknp => exact s.skipIf_sameOutside _
  case ldI | addI | ldF => exact sameOutside_idx s _
  case ldDtVx => exact sameOutside_dt s _
  case ldStVx => exact sameOutside_st s _
  case drw =>
    exact ((sameOutside_disp s _).mono (by simp [writes])).trans ((sameOutside_regs _ _).mono (by simp [writes]))
  case ldB => exact s.storeAtI_sameOutside _ _ _ id SameOutside.refl
  case storeRegs =>
    rw [writes_storeRegs]
    exact s.storeAtI_sameOutside _ _ _ _ (State.bumpIdx_sameOutside _ _)
  case loadRegs =>
    rw [writes_loadRegs]
    exact ((s.loadFromI_sameOutside _).mono (by simp)).trans ((State.bumpIdx_sameOutside _ _ _).mono (by simp))
  all_goals exact sameOutside_regs s _

/-- Settles O52: `exec_sameOutside`, component by component. -/
theorem writesFollowAccessMatrix : Obligations.WritesFollowAccessMatrix :=
  fun _ _ _ h => exec_sameOutside h

/-! ## The registers an instruction writes (R11) -/

theorem State.setReg_entry_kept {s : State} {x r : Reg} {b : Byte} (h : (r == x) = false) :
    (s.setReg x b).v[r] = s.v[r] := by
  rw [State.setReg_entry, if_neg (by simpa using h)]

/-- R95: an instruction that sets the flag writes `V[x]` and VF. -/
theorem State.setResultAndFlag_entry_kept {s : State} {x r : Reg} {b : Byte} {c : Bool}
    (h : (r == x || r == flagReg) = false) : (s.setResultAndFlag x b c).v[r] = s.v[r] := by
  obtain ⟨hx, hflag⟩ := Bool.or_eq_false_iff.mp h
  exact (State.setReg_entry_kept hflag).trans (State.setReg_entry_kept hx)

/-- R145: the block load up to `V[x]` keeps the registers above it. -/
theorem State.loadFromI_entry_kept {s : State} {x r : Reg} (h : ¬ r ≤ x) :
    (s.loadFromI (x.val + 1)).v[r] = s.v[r] := by
  have hr := s.getReg_loadFromI x r
  rwa [if_neg h] at hr

theorem State.bumpIdx_v (increments : Bool) (x : Reg) (s : State) : (State.bumpIdx increments x s).v = s.v := by
  rw [State.bumpIdx_eq]

/-- Settles O53: an instruction whose row of the matrix leaves the registers alone keeps them all (`exec_sameOutside`);
the others write by `setReg`, `setResultAndFlag` or the block load. The last line dismisses those with no case of their
own: their rows do not mark the registers. -/
theorem onlyNamedRegistersAreWritten : Obligations.OnlyNamedRegistersAreWritten := by
  unfold Obligations.OnlyNamedRegistersAreWritten
  intro i s t r h hr
  by_cases hregs : .regs ∈ writes s.params i
  case neg =>
    have hv : t.v = s.v := exec_sameOutside h .regs hregs
    rw [hv]
  cases i
  case ldVxK =>
    obtain rfl | ⟨_, rfl⟩ := exec_ldVxK_cases h
    · rfl
    · exact State.setReg_entry_kept hr
  case storeRegs => simp [writes_storeRegs] at hregs
  all_goals obtain rfl := Host.Outcome.next.inj h
  case ldImm | addImm | ldReg | orReg | andReg | xorReg | rnd | ldVxDt | drw => exact State.setReg_entry_kept hr
  case addReg | sub | shr | subn | shl => exact State.setResultAndFlag_entry_kept hr
  case loadRegs =>
    rw [State.bumpIdx_v]
    exact State.loadFromI_entry_kept (of_decide_eq_false hr)
  all_goals simp [writes] at hregs

/-! ## The inputs that only their readers see (R16, R19, R22) -/

/-- The state with the keys, the random byte and ST replaced. -/
def State.withInputs (k : Keys) (b c : Byte) (s : State) : State := { s with keys := k, rnd := b, st := c }

section Inputs
variable (k : Keys) (b c : Byte)

theorem State.withInputs_params (s : State) : (s.withInputs k b c).params = s.params := rfl

/-! ### The shared operations do not see them -/

theorem State.skipIf_withInputs (s : State) (cond : Bool) :
    (s.withInputs k b c).skipIf cond = (s.skipIf cond).withInputs k b c := by
  cases cond <;> rfl

theorem State.bumpIdx_withInputs (increments : Bool) (x : Reg) (s : State) :
    State.bumpIdx increments x (s.withInputs k b c) = (State.bumpIdx increments x s).withInputs k b c := by
  cases increments <;> rfl

theorem State.loadFromI_withInputs (n : Nat) (s : State) :
    (s.withInputs k b c).loadFromI n = (s.loadFromI n).withInputs k b c :=
  List.foldl_hom _ fun _ _ => rfl

theorem State.putBytes_withInputs (bs : List Byte) (a : Addr) (s : State) :
    (s.withInputs k b c).putBytes a bs = (s.putBytes a bs).withInputs k b c := by
  induction bs generalizing a s with
  | nil => rfl
  | cons byte bs ih => exact ih (a + 1) (s.putByte a byte)

theorem State.putBytesOutsideFont_withInputs (bs : List Byte) (a : Addr) (s : State) :
    (s.withInputs k b c).putBytesOutsideFont a bs = (s.putBytesOutsideFont a bs).withInputs k b c := by
  induction bs generalizing a s with
  | nil => rfl
  | cons byte bs ih =>
    simp only [State.putBytesOutsideFont]
    split
    · exact ih (a + 1) s
    · exact ih (a + 1) (s.putByte a byte)

theorem State.storeBytes_withInputs (policy : Config.FontWritePolicy) (bs : List Byte) (a : Addr) (s : State) :
    (s.withInputs k b c).storeBytes policy a bs = (s.storeBytes policy a bs).withInputs k b c := by
  cases policy
  · exact State.putBytes_withInputs k b c bs a s
  · exact State.putBytesOutsideFont_withInputs k b c bs a s
  · exact State.putBytes_withInputs k b c bs a s

theorem State.storeAtI_withInputs (policy : Config.FontWritePolicy) (w : InsnWord) (bs : List Byte)
    {after : State → State} (hafter : ∀ u : State, after (u.withInputs k b c) = (after u).withInputs k b c)
    (s : State) :
    (s.withInputs k b c).storeAtI policy w bs after = (s.storeAtI policy w bs after).withInputs k b c := by
  unfold State.storeAtI
  rw [apply_ite (State.withInputs k b c), ← hafter, ← State.storeBytes_withInputs]
  rfl

theorem State.pushAndJump_withInputs (w : InsnWord) (a target : Addr) (s : State) :
    (s.withInputs k b c).push w a (State.setPc target) = (s.push w a (State.setPc target)).withInputs k b c := by
  unfold State.push
  rw [apply_dite (State.withInputs k b c)]
  rfl

theorem State.popPc_withInputs (w : InsnWord) (s : State) :
    (s.withInputs k b c).popPc w = (s.popPc w).withInputs k b c := by
  unfold State.popPc
  rw [apply_dite (State.withInputs k b c)]
  rfl

/-! ### The execute phase -/

/-- R128: `FX0A` reads the keys and neither of the other two. -/
theorem exec_ldVxK_withInputs {x : Reg} {s t : State} (h : exec (.ldVxK x) s = .next t) :
    exec (.ldVxK x) (s.withInputs s.keys b c) = .next (t.withInputs s.keys b c) := by
  change execLdVxK x s = .next t at h
  change execLdVxK x (s.withInputs s.keys b c) = _
  have hpick : pickKey s.params.keyPick (s.withInputs s.keys b c) = pickKey s.params.keyPick s := rfl
  unfold execLdVxK at h ⊢
  rw [State.withInputs_params, hpick]
  split at h <;> obtain rfl := Host.Outcome.next.inj h <;> rfl

/-- R26: an instruction sees the keys and the random byte only where it reads them, and ST never; FX18, which
overwrites ST, is left out. -/
theorem exec_withInputs {i : Instr} {s t : State} (h : exec i s = .next t) (hkeys : readsKeys i = true → k = s.keys)
    (hrnd : ∀ x nn, i = .rnd x nn → b = s.rnd) (hst : ∀ x, i ≠ .ldStVx x) :
    exec i (s.withInputs k b c) = .next (t.withInputs k b c) := by
  cases i
  case ldVxK =>
    obtain rfl := hkeys rfl
    exact exec_ldVxK_withInputs b c h
  all_goals obtain rfl := Host.Outcome.next.inj h
  case ldStVx => exact absurd rfl (hst _)
  case rnd =>
    obtain rfl := hrnd _ _ rfl
    rfl
  case skp | sknp =>
    obtain rfl := hkeys rfl
    exact congrArg Host.Outcome.next (State.skipIf_withInputs _ b c s _)
  case seImm | sneImm | seReg | sneReg => exact congrArg Host.Outcome.next (State.skipIf_withInputs k b c s _)
  case ret => exact congrArg Host.Outcome.next (State.popPc_withInputs k b c _ s)
  case call => exact congrArg Host.Outcome.next (State.pushAndJump_withInputs k b c _ _ _ s)
  case ldB => exact congrArg Host.Outcome.next (State.storeAtI_withInputs k b c _ _ _ (after := id) (fun _ => rfl) s)
  case storeRegs =>
    exact congrArg Host.Outcome.next (State.storeAtI_withInputs k b c _ _ _ (State.bumpIdx_withInputs k b c _ _) s)
  case loadRegs =>
    refine congrArg Host.Outcome.next (Eq.trans ?_ (State.bumpIdx_withInputs k b c _ _ _))
    exact congrArg _ (State.loadFromI_withInputs k b c _ s)
  all_goals rfl

end Inputs

/-- R19, R22: no row of the matrix marks the input ports as written. -/
theorem ports_not_mem_writes (p : Config.Params) (i : Instr) : .ports ∉ writes p i := by
  cases i
  case storeRegs => simp [writes_storeRegs]
  case loadRegs => simp [writes_loadRegs]
  all_goals simp [writes]

/-- R16: `FX18` alone writes ST in the execute phase. -/
theorem st_not_mem_writes (p : Config.Params) {i : Instr} (hst : ∀ x, i ≠ .ldStVx x) : .st ∉ writes p i := by
  cases i
  case ldStVx => exact absurd rfl (hst _)
  case storeRegs => simp [writes_storeRegs]
  case loadRegs => simp [writes_loadRegs]
  all_goals simp [writes]

/-- Settles O54: `exec_withInputs` with two of the three inputs as they stand, which the result holds too; `FX18` runs
on registers alone. -/
theorem inputsReachOnlyTheirReaders : Obligations.InputsReachOnlyTheirReaders := by
  unfold Obligations.InputsReachOnlyTheirReaders
  intro i s t h
  by_cases hfx18 : ∃ x, i = .ldStVx x
  case pos =>
    obtain ⟨x, rfl⟩ := hfx18
    obtain rfl := Host.Outcome.next.inj h
    exact ⟨fun _ _ => rfl, fun _ _ => rfl, fun _ hne => absurd rfl (hne x)⟩
  have hst : ∀ x, i ≠ .ldStVx x := fun x hx => hfx18 ⟨x, hx⟩
  obtain ⟨hkeys, hrnd⟩ : t.keys = s.keys ∧ t.rnd = s.rnd :=
    exec_sameOutside h .ports (ports_not_mem_writes s.params i)
  have hsound : t.st = s.st := exec_sameOutside h .st (st_not_mem_writes s.params hst)
  refine ⟨fun k hno => ?keys, fun b hno => ?rnd, fun b _ => ?st⟩
  case keys =>
    have hrun : exec i { s with keys := k } = .next (t.withInputs k s.rnd s.st) :=
      exec_withInputs k s.rnd s.st h (by simp [hno]) (fun _ _ _ => rfl) hst
    rw [hrun, ← hrnd, ← hsound]
    rfl
  case rnd =>
    have hrun : exec i { s with rnd := b } = .next (t.withInputs s.keys b s.st) :=
      exec_withInputs s.keys b s.st h (fun _ => rfl) (fun x nn hx => absurd hx (hno x nn)) hst
    rw [hrun, ← hkeys, ← hsound]
    rfl
  case st =>
    have hrun : exec i { s with st := b } = .next (t.withInputs s.keys s.rnd b) :=
      exec_withInputs s.keys s.rnd b h (fun _ => rfl) (fun _ _ _ => rfl) hst
    rw [hrun, ← hkeys, ← hrnd]
    rfl

/-! ## Call and return (R14) -/

/-- R14: a pop with `k + 1` entries in use returns the entry `k` and leaves `k` in use. -/
theorem State.popPc_of_sp_eq_succ {w : InsnWord} {s : State} {k : Nat} (hk : k < 16) (hsp : s.sp.val = k + 1) :
    (s.popPc w).pc = s.stack[k] ∧ (s.popPc w).sp.val = k := by
  have hpred : s.sp.val - 1 = k := by omega
  obtain ⟨_, hpop⟩ | ⟨hzero, _⟩ := State.popPc_cases w s
  · rw [hpop]
    simp only [hpred, and_self]
  · omega

/-- Settles O18: CALL stores `pc` in the entry `sp` and counts up, and that entry is the one RET reads
(`State.popPc_of_sp_eq_succ`). -/
theorem returnUndoesCall : Obligations.ReturnUndoesCall := by
  unfold Obligations.ReturnUndoesCall
  intro nnn s t u hroom hcall hstack hsp
  obtain rfl := Host.Outcome.next.inj hcall
  obtain ⟨hlt, hpush⟩ | ⟨hfull, _⟩ := State.push_cases (encode (.call nnn)) s.pc (State.setPc nnn) s
  · rw [hpush] at hstack hsp
    have hused : u.sp.val = s.sp.val + 1 := by rw [hsp]; rfl
    obtain ⟨hpc, hback⟩ := u.popPc_of_sp_eq_succ (w := encode .ret) hlt hused
    refine ⟨_, rfl, ?_, Fin.ext hback⟩
    rw [hpc]
    simp [hstack]
  · omega

end Sys2Proof.Machine
end

section
/-!
PROOFS. The memory (spec/20_memory.md): a fetch reads what the last store wrote, be it the host's or a block store of
the cycle before.
-/

namespace Sys2Proof.Machine

open Sys2Proof.Claims

/-! ## The word the host places (log entry 7) -/

/-- R66: the word of the statements is the word the step fetches. -/
theorem wordAtPc_eq_fetchWord (s : State) : wordAtPc s = s.fetchWord := rfl

/-- A placed word of 16 bits is taken as it stands. -/
theorem tableWord_sixteen (w : Nat) : tableWord 16 w = BitVec.ofNat 16 w :=
  BitVec.eq_of_toNat_eq (by simp [tableWord])

/-- R31: a placed word stands at `pc` and `pc + 1`, and every other byte is what it was. -/
theorem State.readByte_withFetchWord (s : State) (nbits w : Nat) (a : Addr) :
    (s.withFetchWord nbits w).readByte a =
      if a = s.pc + 1 then wordLow (tableWord nbits w)
      else if a = s.pc then wordHigh (tableWord nbits w) else s.readByte a := by
  rw [← State.readByte_putByte, ← State.readByte_putByte]
  rfl

/-- R31, R66: the byte order of the placement is that of the fetch. -/
theorem State.fetchWord_withFetchWord (s : State) (nbits w : Nat) :
    (s.withFetchWord nbits w).fetchWord = tableWord nbits w := by
  have hpc : (s.withFetchWord nbits w).pc = s.pc := rfl
  have hne : s.pc ≠ s.pc + 1 := by bv_omega
  rw [State.fetchWord, hpc, State.readByte_withFetchWord, State.readByte_withFetchWord, if_neg hne, if_pos rfl,
    if_pos rfl, wordOfBytes_high_low]

/-- Settles O44: the fetched word by `State.fetchWord_withFetchWord`, the other bytes by
`State.readByte_withFetchWord`. -/
theorem placedWordIsFetched : Obligations.PlacedWordIsFetched := by
  unfold Obligations.PlacedWordIsFetched
  intro s w _
  refine ⟨?fetched, rfl, rfl, fun a hfirst hsecond => ?others⟩
  case fetched => rw [wordAtPc_eq_fetchWord, State.fetchWord_withFetchWord, tableWord_sixteen]
  case others => rw [State.readByte_withFetchWord, if_neg hsecond, if_neg hfirst]

/-! ## The word a block store leaves where the next cycle fetches (R40, R191) -/

/-- R69 to R71: the end of a cycle moves neither `pc` nor memory, so it leaves the next fetch alone. -/
theorem State.fetchWord_endCycle (s : State) : s.endCycle.fetchWord = s.fetchWord := by
  rw [State.endCycle_frame]
  rfl

/-- The end of a cycle leaves the latch alone. -/
theorem State.endCycle_fault (s : State) : s.endCycle.fault = s.fault := by
  rw [State.endCycle_frame]

/-- R144, R36: `FX55` raises FontWrite, or it performs its byte stores and then moves `I` as its parameter says. -/
theorem exec_storeRegs_cases {x : Reg} {s t : State} (h : exec (.storeRegs x) s = .next t) :
    t = s.raise .fontWrite (encode (.storeRegs x)) ∨
      t = State.bumpIdx s.params.loadStoreIncrementsI x
        (s.storeBytes s.params.fontWritePolicy s.idx (s.regsUpTo x)) := by
  obtain rfl := Host.Outcome.next.inj h
  obtain ⟨_, hraise⟩ | ⟨_, hstores⟩ := State.storeAtI_cases s.params.fontWritePolicy (encode (.storeRegs x))
    (s.regsUpTo x) (State.bumpIdx s.params.loadStoreIncrementsI x) s
  · exact .inl hraise
  · exact .inr hstores

/-- R144: the byte `k` past `I` after the byte stores of `FX55` is `V[k]`, unless the policy drops it. -/
theorem State.readByte_storeBytes_regsUpTo {s : State} {x k : Reg} (hk : k ≤ x)
    (hkept : ¬ storeDropped s (s.idx + BitVec.ofNat 12 k.val)) :
    (s.storeBytes s.params.fontWritePolicy s.idx (s.regsUpTo x)).readByte (s.idx + BitVec.ofNat 12 k.val) =
      s.v[k] := by
  have hlen : (s.regsUpTo x).length ≤ 4096 := by
    rw [State.length_regsUpTo]
    omega
  have hoffset : (s.idx + BitVec.ofNat 12 k.val - s.idx).toNat = k.val := by bv_omega
  rw [State.readByte_storeBytes _ _ _ _ _ hlen, if_neg hkept, hoffset, State.getD_regsUpTo, dif_pos (Fin.le_def.mp hk)]
  rfl

/-- Neither the byte stores of `FX55` nor the move of `I` after them touches `pc`, and the move touches no byte: the next
fetch is of the two stored bytes at `pc`. -/
theorem State.fetchWord_bumpIdx_storeBytes (increments : Bool) (x : Reg) (policy : Config.FontWritePolicy) (a : Addr)
    (bs : List Byte) (s : State) :
    (State.bumpIdx increments x (s.storeBytes policy a bs)).fetchWord =
      wordOfBytes ((s.storeBytes policy a bs).readByte s.pc) ((s.storeBytes policy a bs).readByte (s.pc + 1)) := by
  rw [State.bumpIdx_eq, State.storeBytes_frame]
  rfl

/-- R40: an `FX55` that raises nothing, with `I` at the address of the next instruction, leaves `V[0]` and `V[1]` as the
word that is fetched there. -/
theorem fetchWord_of_exec_storeRegs {x : Reg} {s t : State} (h : exec (.storeRegs x) s = .next t)
    (hhealthy : t.fault = none) (hx : 1 ≤ x.val) (hidx : s.idx = s.pc) (hfirst : ¬ storeDropped s s.idx)
    (hsecond : ¬ storeDropped s (s.idx + 1)) : t.fetchWord = s.v[(0 : Reg)] ++ s.v[(1 : Reg)] := by
  obtain rfl | rfl := exec_storeRegs_cases h
  · cases hhealthy
  · have hzero : s.idx + BitVec.ofNat 12 (0 : Reg).val = s.idx := BitVec.add_zero s.idx
    have hbyte0 := State.readByte_storeBytes_regsUpTo (k := 0) (Fin.zero_le x) (by rwa [hzero])
    have hbyte1 := State.readByte_storeBytes_regsUpTo (k := 1) hx hsecond
    rw [hzero] at hbyte0
    rw [State.fetchWord_bumpIdx_storeBytes, ← hidx, hbyte0]
    exact congrArg (wordOfBytes _) hbyte1

/-- Settles O43: by `step_cases` the cycle runs `FX55` from the advanced state, where `I` is `pc`, and what follows leaves
the next fetch alone (`State.fetchWord_endCycle`). -/
theorem storedBytesAreFetchedNext : Obligations.StoredBytesAreFetchedNext := by
  unfold Obligations.StoredBytesAreFetchedNext
  intro x s t _ hdecode hx hidx hfirst hsecond hstep hhealthy
  rw [wordAtPc_eq_fetchWord] at hdecode ⊢
  obtain ⟨_, u, rfl, ⟨i, hi, hexec⟩ | ⟨e, he, _⟩⟩ := step_cases hstep
  · rw [State.endCycle_fault] at hhealthy
    obtain rfl : Instr.storeRegs x = i := Except.ok.inj (hdecode.symm.trans hi)
    rw [State.fetchWord_endCycle]
    exact fetchWord_of_exec_storeRegs (s := s.advance) hexec hhealthy hx hidx hfirst hsecond
  · cases hdecode.symm.trans he

end Sys2Proof.Machine
end

section
/-!
PROOFS. The encoding (spec/30_encoding.md): the decoder against the encoder and against the opcode map, and the cycle of
a word that carries no instruction.
-/

namespace Sys2Proof

open Sys2Proof.Laws

/-! ## Decoding the word of an instruction (R55, R60) -/

theorem formatA_inj {f : BitVec 4} {a b : Addr} : formatA f a = formatA f b ↔ a = b :=
  ⟨fun h => by simpa using congrArg fieldNNN h, congrArg (formatA f)⟩

/-- R55: the targets of `SYS` are those whose word is neither `00E0` nor `00EE`. -/
theorem sysTarget_iff (nnn : Addr) :
    sysTarget nnn = true ↔ formatA 0x0 nnn ≠ 0x00E0 ∧ formatA 0x0 nnn ≠ 0x00EE := by
  rw [show (0x00E0 : InsnWord) = formatA 0x0 0x0E0 from rfl, show (0x00EE : InsnWord) = formatA 0x0 0x0EE from rfl,
    ne_eq, ne_eq, formatA_inj, formatA_inj]
  simp [sysTarget]

theorem decodeFamily0_formatA {nnn : Addr} (h : sysTarget nnn = true) : decodeFamily0 (formatA 0x0 nnn) = .sys nnn := by
  obtain ⟨hcls, hret⟩ := (sysTarget_iff nnn).mp h
  rw [decodeFamily0, if_neg hcls, if_neg hret, fieldNNN_formatA]

/-- R60: decoding undoes encoding. The cases but `SYS`, `CLS` and `RET` follow from the field lemmas of each format. -/
theorem decode_encode {i : Instr} (h : i.wf = true) : decode (encode i) = .ok i := by
  cases i with
  | sys nnn => simpa [encode, decode] using decodeFamily0_formatA h
  | cls => rfl
  | ret => rfl
  | _ => simp [encode, decode, decodeFamily5, decodeFamily8, decodeFamily9, decodeFamilyE, decodeFamilyF]

/-- Settles O2: the family, and inside it the fixed nibble or byte, select the arm the word was encoded for, which reads
back each operand's own field; only `SYS` needs its well-formedness (`sysTarget_iff`). -/
theorem decodeInvertsEncode : Obligations.DecodeInvertsEncode := fun _ => decode_encode

/-- Settles O1: the decoder is evaluated on each word. -/
theorem decodesWrittenWords : Obligations.DecodesWrittenWords := by
  unfold Obligations.DecodesWrittenWords
  decide

/-! ## A word from its family and its other fields -/

section Fields
variable {w : InsnWord} {f : BitVec 4}

theorem formatA_of_family (hf : family w = f) : formatA f (fieldNNN w) = w :=
  hf ▸ (word_eq_formatA w).symm

theorem formatI_of_family (hf : family w = f) : formatI f (fieldX w) (fieldNN w) = w :=
  hf ▸ (word_eq_formatI w).symm

theorem formatD_of_family (hf : family w = f) : formatR f (fieldX w) (fieldY w) (regBits (fieldHeight w)) = w := by
  rw [regBits_fieldHeight, ← hf, ← word_eq_formatR]

theorem formatR_of_fields {n : BitVec 4} (h : family w = f ∧ fieldN w = n) : formatR f (fieldX w) (fieldY w) n = w :=
  h.1 ▸ h.2 ▸ (word_eq_formatR w).symm

theorem formatS_of_fields {b : Byte} (h : family w = f ∧ fieldNN w = b) : formatS f (fieldX w) b = w :=
  h.1 ▸ h.2 ▸ (word_eq_formatI w).symm

/-! ## The fields that a row of the opcode map fixes (R56) -/

/-- A row of mask `F000` fixes the family. -/
theorem family_of_rowMatches (h : rowMatches ⟨0xF000, formatA f 0⟩ w = true) : family w = f := by
  have hmask : formatA (family w) 0 = formatA f 0 := by
    rw [← OpcodeRowMatch.formatA_mask _ (fieldNNN w), ← word_eq_formatA]
    exact beq_iff_eq.mp h
  simpa using congrArg family hmask

/-- A row of mask `F00F` fixes the family and the low nibble. -/
theorem family_fieldN_of_rowMatches {n : BitVec 4} (h : rowMatches ⟨0xF00F, formatR f 0 0 n⟩ w = true) :
    family w = f ∧ fieldN w = n := by
  have hmask : formatR (family w) 0 0 (fieldN w) = formatR f 0 0 n := by
    rw [← OpcodeRowMatch.formatR_mask _ (fieldX w) (fieldY w), ← word_eq_formatR]
    exact beq_iff_eq.mp h
  exact ⟨by simpa using congrArg family hmask, by simpa using congrArg fieldN hmask⟩

/-- A row of mask `F0FF` fixes the family and the low byte. -/
theorem family_fieldNN_of_rowMatches {b : Byte} (h : rowMatches ⟨0xF0FF, formatS f 0 b⟩ w = true) :
    family w = f ∧ fieldNN w = b := by
  have hmask : formatS (family w) 0 (fieldNN w) = formatS f 0 b := by
    rw [← OpcodeRowMatch.formatS_mask _ (fieldX w), formatS_of_fields ⟨rfl, rfl⟩]
    exact beq_iff_eq.mp h
  exact ⟨by simpa using congrArg family hmask, by simpa using congrArg fieldNN hmask⟩

/-- A row of mask `FFFF` fixes the whole word. -/
theorem eq_of_rowMatches {b : InsnWord} (h : rowMatches ⟨0xFFFF, b⟩ w = true) : w = b := by
  have hmask : w &&& BitVec.allOnes 16 = b := beq_iff_eq.mp h
  rwa [BitVec.and_allOnes] at hmask

end Fields

/-! ## Encoding a decoded instruction (R60) -/

theorem encode_decodeFamily0 {w : InsnWord} (hf : family w = 0x0) :
    (decodeFamily0 w).wf = true ∧ encode (decodeFamily0 w) = w := by
  have hword : formatA 0x0 (fieldNNN w) = w := formatA_of_family hf
  unfold decodeFamily0
  split
  case isTrue hcls => exact ⟨rfl, hcls.symm⟩
  case isFalse hcls =>
    split
    case isTrue hret => exact ⟨rfl, hret.symm⟩
    case isFalse hret => exact ⟨(sysTarget_iff _).mpr (hword.symm ▸ ⟨hcls, hret⟩), hword⟩

/-- R60: encoding undoes decoding; one case per arm of the decoder, the arms of one format together. -/
theorem encode_of_decode {w : InsnWord} {i : Instr} (h : decode w = .ok i) : i.wf = true ∧ encode i = w := by
  unfold decode at h
  split at h
  case h_1 hf => cases h; exact encode_decodeFamily0 hf
  case h_2 hf | h_3 hf | h_11 hf | h_12 hf => cases h; exact ⟨rfl, formatA_of_family hf⟩
  case h_4 hf | h_5 hf | h_7 hf | h_8 hf | h_13 hf => cases h; exact ⟨rfl, formatI_of_family hf⟩
  case h_14 hf => cases h; exact ⟨rfl, formatD_of_family hf⟩
  case h_6 hf | h_9 hf | h_10 hf =>
    simp only [decodeFamily5, decodeFamily8, decodeFamily9] at h
    split at h <;> cases h
    all_goals exact ⟨rfl, formatR_of_fields ⟨hf, ‹_›⟩⟩
  case h_15 hf =>
    unfold decodeFamilyE at h
    split at h <;> cases h
    all_goals exact ⟨rfl, formatS_of_fields ⟨hf, ‹_›⟩⟩
  case h_16 =>
    have hf : family w = 0xF := by simp only [imp_false] at *; bv_omega
    unfold decodeFamilyF at h
    split at h <;> cases h
    all_goals exact ⟨rfl, formatS_of_fields ⟨hf, ‹_›⟩⟩

/-- Settles O3: in every arm of the decoder the word is the format of the fields that the arm reads. -/
theorem encodeInvertsDecode : Obligations.EncodeInvertsDecode := fun _ _ => encode_of_decode

/-! ## The opcode map (R56) -/

/-- An instruction with the operands that a word holds in its fields. -/
def Instr.withFields (w : InsnWord) : Instr → Instr
  | .sys _ => .sys (fieldNNN w)
  | .cls => .cls
  | .ret => .ret
  | .jp _ => .jp (fieldNNN w)
  | .call _ => .call (fieldNNN w)
  | .seImm _ _ => .seImm (fieldX w) (fieldNN w)
  | .sneImm _ _ => .sneImm (fieldX w) (fieldNN w)
  | .seReg _ _ => .seReg (fieldX w) (fieldY w)
  | .ldImm _ _ => .ldImm (fieldX w) (fieldNN w)
  | .addImm _ _ => .addImm (fieldX w) (fieldNN w)
  | .ldReg _ _ => .ldReg (fieldX w) (fieldY w)
  | .orReg _ _ => .orReg (fieldX w) (fieldY w)
  | .andReg _ _ => .andReg (fieldX w) (fieldY w)
  | .xorReg _ _ => .xorReg (fieldX w) (fieldY w)
  | .addReg _ _ => .addReg (fieldX w) (fieldY w)
  | .sub _ _ => .sub (fieldX w) (fieldY w)
  | .shr _ _ => .shr (fieldX w) (fieldY w)
  | .subn _ _ => .subn (fieldX w) (fieldY w)
  | .shl _ _ => .shl (fieldX w) (fieldY w)
  | .sneReg _ _ => .sneReg (fieldX w) (fieldY w)
  | .ldI _ => .ldI (fieldNNN w)
  | .jpV0 _ => .jpV0 (fieldNNN w)
  | .rnd _ _ => .rnd (fieldX w) (fieldNN w)
  | .drw _ _ _ => .drw (fieldX w) (fieldY w) (fieldHeight w)
  | .skp _ => .skp (fieldX w)
  | .sknp _ => .sknp (fieldX w)
  | .ldVxDt _ => .ldVxDt (fieldX w)
  | .ldVxK _ => .ldVxK (fieldX w)
  | .ldDtVx _ => .ldDtVx (fieldX w)
  | .ldStVx _ => .ldStVx (fieldX w)
  | .addI _ => .addI (fieldX w)
  | .ldF _ => .ldF (fieldX w)
  | .ldB _ => .ldB (fieldX w)
  | .storeRegs _ => .storeRegs (fieldX w)
  | .loadRegs _ => .loadRegs (fieldX w)

theorem opcodeRow_withFields (w : InsnWord) (i : Instr) : opcodeRow (i.withFields w) = opcodeRow i := by
  cases i <;> rfl

theorem encode_withFields {w : InsnWord} {i : Instr} (h : rowMatches (opcodeRow i) w = true) :
    encode (i.withFields w) = w := by
  cases i with
  | cls | ret => exact (eq_of_rowMatches h).symm
  | sys | jp | call | ldI | jpV0 => exact formatA_of_family (family_of_rowMatches h)
  | seImm | sneImm | ldImm | addImm | rnd => exact formatI_of_family (family_of_rowMatches h)
  | drw => exact formatD_of_family (family_of_rowMatches h)
  | seReg | ldReg | orReg | andReg | xorReg | addReg | sub | shr | subn | shl | sneReg =>
    exact formatR_of_fields (family_fieldN_of_rowMatches h)
  | skp | sknp | ldVxDt | ldVxK | ldDtVx | ldStVx | addI | ldF | ldB | storeRegs | loadRegs =>
    exact formatS_of_fields (family_fieldNN_of_rowMatches h)

theorem wf_of_opcodeRow_ne_sysRow {i : Instr} (h : opcodeRow i ≠ sysRow) : i.wf = true := by
  cases i with
  | sys => exact absurd rfl h
  | _ => rfl

/-- One instruction of each row other than `SYS`. -/
def properInstrs : List Instr :=
  [.cls, .ret, .jp 0, .call 0, .seImm 0 0, .sneImm 0 0, .seReg 0 0, .ldImm 0 0, .addImm 0 0, .ldReg 0 0, .orReg 0 0,
    .andReg 0 0, .xorReg 0 0, .addReg 0 0, .sub 0 0, .shr 0 0, .subn 0 0, .shl 0 0, .sneReg 0 0, .ldI 0, .jpV0 0,
    .rnd 0 0, .drw 0 0 0, .skp 0, .sknp 0, .ldVxDt 0, .ldVxK 0, .ldDtVx 0, .ldStVx 0, .addI 0, .ldF 0, .ldB 0,
    .storeRegs 0, .loadRegs 0]

theorem properRows_eq_map : properRows = properInstrs.map opcodeRow := rfl

theorem sysRow_not_mem_properRows : sysRow ∉ properRows := by decide

theorem properRows_nodup : properRows.Nodup := by decide

theorem opcodeRow_mem (i : Instr) : opcodeRow i ∈ sysRow :: properRows := by
  cases i <;> simp [opcodeRow, sysRow, properRows]

theorem rowMatches_encode : ∀ i : Instr, rowMatches (opcodeRow i) (encode i) = true
  | .sys nnn => OpcodeRowMatch.sys nnn
  | .cls => OpcodeRowMatch.cls
  | .ret => OpcodeRowMatch.ret
  | .jp nnn => OpcodeRowMatch.jp nnn
  | .call nnn => OpcodeRowMatch.call nnn
  | .seImm x nn => OpcodeRowMatch.seImm x nn
  | .sneImm x nn => OpcodeRowMatch.sneImm x nn
  | .seReg x y => OpcodeRowMatch.seReg x y
  | .ldImm x nn => OpcodeRowMatch.ldImm x nn
  | .addImm x nn => OpcodeRowMatch.addImm x nn
  | .ldReg x y => OpcodeRowMatch.ldReg x y
  | .orReg x y => OpcodeRowMatch.orReg x y
  | .andReg x y => OpcodeRowMatch.andReg x y
  | .xorReg x y => OpcodeRowMatch.xorReg x y
  | .addReg x y => OpcodeRowMatch.addReg x y
  | .sub x y => OpcodeRowMatch.sub x y
  | .shr x y => OpcodeRowMatch.shr x y
  | .subn x y => OpcodeRowMatch.subn x y
  | .shl x y => OpcodeRowMatch.shl x y
  | .sneReg x y => OpcodeRowMatch.sneReg x y
  | .ldI nnn => OpcodeRowMatch.ldI nnn
  | .jpV0 nnn => OpcodeRowMatch.jpV0 nnn
  | .rnd x nn => OpcodeRowMatch.rnd x nn
  | .drw x y n => OpcodeRowMatch.drw x y n
  | .skp x => OpcodeRowMatch.skp x
  | .sknp x => OpcodeRowMatch.sknp x
  | .ldVxDt x => OpcodeRowMatch.ldVxDt x
  | .ldVxK x => OpcodeRowMatch.ldVxK x
  | .ldDtVx x => OpcodeRowMatch.ldDtVx x
  | .ldStVx x => OpcodeRowMatch.ldStVx x
  | .addI x => OpcodeRowMatch.addI x
  | .ldF x => OpcodeRowMatch.ldF x
  | .ldB x => OpcodeRowMatch.ldB x
  | .storeRegs x => OpcodeRowMatch.storeRegs x
  | .loadRegs x => OpcodeRowMatch.loadRegs x

/-- A word that matches a row other than `SYS` decodes to an instruction of that row. -/
theorem exists_decode_of_properRow {r : OpcodeRow} {w : InsnWord} (hr : r ∈ properRows) (h : rowMatches r w = true) :
    ∃ i, decode w = .ok i ∧ opcodeRow i = r := by
  have hsys : r ≠ sysRow := ne_of_mem_of_not_mem hr sysRow_not_mem_properRows
  rw [properRows_eq_map] at hr
  obtain ⟨i, _, rfl⟩ := List.mem_map.mp hr
  have hwf : (i.withFields w).wf = true := wf_of_opcodeRow_ne_sysRow (opcodeRow_withFields w i ▸ hsys)
  have hdecode := decode_encode hwf
  rw [encode_withFields h] at hdecode
  exact ⟨_, hdecode, opcodeRow_withFields w i⟩

/-- R55: a word that matches the `SYS` row decodes to an instruction of family 0. -/
theorem decode_of_sysRow {w : InsnWord} (h : rowMatches sysRow w = true) : decode w = .ok (decodeFamily0 w) := by
  have hf : family w = 0x0 := family_of_rowMatches h
  simp [decode, hf]

/-- A decoded word matches at most one row other than `SYS`, that of its instruction. -/
theorem opcodeRow_eq_of_rowMatches {r : OpcodeRow} {w : InsnWord} {i : Instr} (hi : decode w = .ok i)
    (hr : r ∈ properRows) (h : rowMatches r w = true) : opcodeRow i = r := by
  obtain ⟨j, hj, hrow⟩ := exists_decode_of_properRow hr h
  obtain rfl : i = j := Except.ok.inj (hi.symm.trans hj)
  exact hrow

theorem not_decode_error_of_rowMatches {r : OpcodeRow} {w : InsnWord} {e : Unmapped} (hr : r ∈ sysRow :: properRows)
    (h : rowMatches r w = true) : decode w ≠ .error e := by
  obtain ⟨i, hi⟩ : ∃ i, decode w = .ok i := by
    obtain rfl | hproper := List.mem_cons.mp hr
    · exact ⟨_, decode_of_sysRow h⟩
    · obtain ⟨i, hi, _⟩ := exists_decode_of_properRow hproper h
      exact ⟨i, hi⟩
  simp [hi]

/-- Settles O4: a decoded word is its instruction's encoding, which matches the row (`rowMatches_encode`), and a row
other than `SYS` that matches a word is the row of what the word decodes to (`exists_decode_of_properRow`). -/
theorem decoderFollowsOpcodeMap : Obligations.DecoderFollowsOpcodeMap := by
  unfold Obligations.DecoderFollowsOpcodeMap
  intro w
  have hown : ∀ i, decode w = .ok i → rowMatches (opcodeRow i) w = true := fun i hi =>
    (encode_of_decode hi).2 ▸ rowMatches_encode i
  refine ⟨fun i hi => ⟨hown i hi, fun hsys r hr => ?_⟩, fun ⟨e, he⟩ r hr => ?_, fun hnone => ?_⟩
  · refine Bool.eq_false_of_not_eq_true fun hm => ?_
    obtain rfl := opcodeRow_eq_of_rowMatches hi hr hm
    exact sysRow_not_mem_properRows (hsys ▸ hr)
  · exact Bool.eq_false_of_not_eq_true fun hm => not_decode_error_of_rowMatches hr hm he
  · cases hd : decode w with
    | error e => exact ⟨e, rfl⟩
    | ok i => exact absurd (hown i hd) (by simp [hnone _ (opcodeRow_mem i)])

/-- Settles O5: the rows are pairwise different, and two of them that match one word are both the row of what it decodes
to. -/
theorem opcodeRowsNeverOverlap : Obligations.OpcodeRowsNeverOverlap := by
  unfold Obligations.OpcodeRowsNeverOverlap
  refine ⟨rfl, properRows_nodup.imp_of_mem fun hr hr' hne w ⟨hm, hm'⟩ => hne ?_⟩
  obtain ⟨i, hi, hrow⟩ := exists_decode_of_properRow hr hm
  exact hrow.symm.trans (opcodeRow_eq_of_rowMatches hi hr' hm')

end Sys2Proof

namespace Sys2Proof.Machine

open Sys2Proof.Claims

/-! ## The cycle of a word that carries no instruction (R57) -/

theorem step_of_execWord {s t : State} (hf : s.fault = none) (h : execWord s.fetchWord s.advance = .next t) :
    step s = .next t.endCycle := by
  simp [step, State.cycle, hf, h]

/-- R57, R80: the execute phase does nothing for a word that no row matches and for a `SYS` word. -/
theorem execWord_of_noOp {w : InsnWord} (h : (∃ e, decode w = .error e) ∨ ∃ nnn, decode w = .ok (.sys nnn))
    (s : State) : execWord w s = .next s := by
  obtain ⟨e, he⟩ | ⟨nnn, hsys⟩ := h
  · simp [execWord, he]
  · simp [execWord, hsys, exec, execSys]

theorem State.endCycle_agreeOutsideTimers (t : State) : AgreeOutsideTimers t t.endCycle := by
  rw [State.endCycle_frame]
  exact ⟨rfl, rfl, rfl, rfl, rfl, rfl, rfl, rfl, rfl, rfl⟩

theorem State.endCycle_timersTicked {t : State} (h : t.fault = none) : TimersTicked t t.endCycle := by
  have hst : t.tickDelay.st = t.st := by rw [State.tickDelay_eq]
  have hdt : t.tickDelay.tickSound.dt = t.tickDelay.dt := by rw [State.tickSound_eq]
  rw [State.endCycle_of_healthy h]
  refine ⟨?_, ?_, ?_⟩
  · simp only [State.markRunning_dt, State.nextDraw_dt, hdt, State.tickDelay_dt]
  · simp only [State.markRunning_st, State.nextDraw_st, State.tickSound_st, hst]
  · simp only [State.markRunning_beep, State.nextDraw_beep, State.tickSound_beep, hst]

/-- Settles O9: the cycle is the end of the cycle after the advance alone (`execWord_of_noOp`). -/
theorem unmappedWordsAreNoOps : Obligations.UnmappedWordsAreNoOps := by
  unfold Obligations.UnmappedWordsAreNoOps
  intro s hf hnoOp
  rw [wordAtPc_eq_fetchWord] at hnoOp
  exact ⟨_, step_of_execWord hf (execWord_of_noOp hnoOp s.advance), State.endCycle_agreeOutsideTimers s.advance,
    State.endCycle_timersTicked (t := s.advance) hf⟩

end Sys2Proof.Machine
end

section
/-!
PROOFS. The cycle (spec/40_cycle_dispatch.md): the fetch, the step as the execute phase and the end of the cycle, and
the faulting cycle.
-/

namespace Sys2Proof.Machine

open Sys2Proof.Claims

/-! ## The fetch (R66) -/

/-- R31: the byte at the lower address counts 256. -/
theorem toNat_wordOfBytes (hi lo : Byte) : (wordOfBytes hi lo).toNat = 256 * hi.toNat + lo.toNat := by
  rw [wordOfBytes, BitVec.toNat_append, ← Nat.shiftLeft_add_eq_or_of_lt lo.isLt, Nat.shiftLeft_eq, Nat.mul_comm]

/-- Settles O6: `pc + 1` on 12 bits is the address after the wrap, and `toNat_wordOfBytes` gives the order of the two
bytes. -/
theorem fetchIsBigEndianAndWraps : Obligations.FetchIsBigEndianAndWraps := by
  unfold Obligations.FetchIsBigEndianAndWraps
  intro s a ha
  have hwrap : s.pc + 1 = a := BitVec.eq_of_toNat_eq (by rw [ha, BitVec.toNat_add]; rfl)
  rw [State.fetchWord, hwrap, toNat_wordOfBytes]

/-! ## The step from its execute phase (R65, R68) -/

/-- R57, R68: the execute phase of the statements is the one the model runs on the fetched word. -/
theorem execWord_of_executes {s t : State} (h : Executes s t) : execWord (wordAtPc s) (advanced s) = .next t := by
  obtain ⟨i, hdecode, hexec⟩ | ⟨⟨e, hdecode⟩, rfl⟩ := h
  · simpa [execWord, hdecode] using hexec
  · simp [execWord, hdecode]

theorem step_of_executes {s t : State} (hf : s.fault = none) (h : Executes s t) : step s = .next t.endCycle :=
  step_of_execWord hf (execWord_of_executes h)

/-- R65: a step that goes on has an execute phase and ends with the end of the cycle. -/
theorem exists_executes_of_step {s t : State} (h : step s = .next t) : ∃ u, Executes s u ∧ t = u.endCycle := by
  obtain ⟨_, u, rfl, hexec | ⟨e, hdecode, rfl⟩⟩ := step_cases h
  · exact ⟨u, .inl hexec, rfl⟩
  · exact ⟨s.advance, .inr ⟨⟨e, hdecode⟩, rfl⟩, rfl⟩

/-- Settles O7: the decoded instruction is the execute phase of the cycle (`step_of_executes`). -/
theorem stepRunsDecodedInstruction : Obligations.StepRunsDecodedInstruction := by
  unfold Obligations.StepRunsDecodedInstruction
  intro s i t hf hdecode hexec
  exact step_of_executes hf (.inl ⟨i, hdecode, hexec⟩)

/-! ## Every cycle answers (R68, R74) -/

/-- No arm of `exec` faults or refuses. -/
theorem exec_answers (i : Instr) (s : State) : ∃ t, exec i s = .next t := by
  cases i
  case ldVxK x =>
    change ∃ t, execLdVxK x s = .next t
    unfold execLdVxK
    split
    · exact ⟨_, rfl⟩
    · exact ⟨_, rfl⟩
  all_goals exact ⟨_, rfl⟩

/-- R57, R60: every fetched word has an execute phase. -/
theorem exists_executes (s : State) : ∃ t, Executes s t := by
  cases hdecode : decode (wordAtPc s) with
  | ok i =>
    obtain ⟨t, hexec⟩ := exec_answers i (advanced s)
    exact ⟨t, .inl ⟨i, hdecode, hexec⟩⟩
  | error e => exact ⟨advanced s, .inr ⟨⟨e, hdecode⟩, rfl⟩⟩

/-- Settles O12: `exec` answers (`exec_answers`), so a healthy cycle has an execute phase, and `step_of_executes` ends
it; a latched fault makes the step stuck. -/
theorem everyCycleAnswers : Obligations.EveryCycleAnswers := by
  unfold Obligations.EveryCycleAnswers
  refine ⟨exec_answers, fun s => ⟨fun hf => ?_, fun _ hfault => step_of_fault hfault⟩⟩
  obtain ⟨t, hexec⟩ := exists_executes s
  exact ⟨t.endCycle, step_of_executes hf hexec⟩

/-! ## What the execute phase does to the latch (R156) -/

/-- `t` has the fault latch of `s`, or is `s` with a fault raised by the word `w` and with nothing else done. -/
def KeepsLatchOrRaises (w : InsnWord) (s t : State) : Prop := t.fault = s.fault ∨ ∃ k, t = s.raise k w

theorem State.pushAndJump_keepsLatchOrRaises (s : State) (w : InsnWord) (a target : Addr) :
    KeepsLatchOrRaises w s (s.push w a (State.setPc target)) := by
  obtain ⟨_, hpush⟩ | ⟨_, hraise⟩ := State.push_cases w a (State.setPc target) s
  · rw [hpush]
    exact .inl rfl
  · exact .inr ⟨.stackOverflow, hraise⟩

theorem State.popPc_keepsLatchOrRaises (s : State) (w : InsnWord) : KeepsLatchOrRaises w s (s.popPc w) := by
  obtain ⟨_, hpop⟩ | ⟨_, hraise⟩ := State.popPc_cases w s
  · rw [hpop]
    exact .inl rfl
  · exact .inr ⟨.stackUnderflow, hraise⟩

theorem State.storeAtI_keepsLatchOrRaises (policy : Config.FontWritePolicy) (w : InsnWord) (bs : List Byte)
    {after : State → State} (hafter : ∀ u : State, (after u).fault = u.fault) (s : State) :
    KeepsLatchOrRaises w s (s.storeAtI policy w bs after) := by
  obtain ⟨_, hraise⟩ | ⟨_, hstores⟩ := State.storeAtI_cases policy w bs after s
  · exact .inr ⟨.fontWrite, hraise⟩
  · refine .inl ?_
    rw [hstores, hafter, State.storeBytes_frame]

theorem State.skipIf_fault (s : State) (c : Bool) : (s.skipIf c).fault = s.fault := by
  rw [State.skipIf_eq]

theorem State.bumpIdx_fault (increments : Bool) (x : Reg) (s : State) :
    (State.bumpIdx increments x s).fault = s.fault := by
  rw [State.bumpIdx_eq]

theorem State.loadFromI_fault (s : State) (x : Reg) : (s.loadFromI (x.val + 1)).fault = s.fault := by
  rw [State.loadFromI_frame]

/-- R155, R156: `CALL`, `RET` and the two stores raise a fault or keep the latch; every other instruction keeps it. -/
theorem exec_keepsLatchOrRaises {i : Instr} {s t : State} (h : exec i s = .next t) :
    KeepsLatchOrRaises (encode i) s t := by
  cases i
  case ldVxK => obtain rfl | ⟨_, rfl⟩ := exec_ldVxK_cases h <;> exact .inl rfl
  all_goals obtain rfl := Host.Outcome.next.inj h
  case ret => exact s.popPc_keepsLatchOrRaises _
  case call => exact s.pushAndJump_keepsLatchOrRaises _ _ _
  case ldB => exact s.storeAtI_keepsLatchOrRaises _ _ _ (after := id) fun _ => rfl
  case storeRegs => exact s.storeAtI_keepsLatchOrRaises _ _ _ (State.bumpIdx_fault _ _)
  case seImm | sneImm | seReg | sneReg | skp | sknp => exact .inl (s.skipIf_fault _)
  case loadRegs => exact .inl ((State.bumpIdx_fault _ _ _).trans (s.loadFromI_fault _))
  all_goals exact .inl rfl

/-- R156: a latched fault of a cycle that began without one is a raise by the fetched word, which is the encoding of the
instruction that raises it. -/
theorem eq_raise_of_executes {s t : State} (hf : s.fault = none) (h : Executes s t) (hfault : t.fault ≠ none) :
    ∃ k, t = (advanced s).raise k (wordAtPc s) := by
  obtain ⟨i, hdecode, hexec⟩ | ⟨_, rfl⟩ := h
  · rw [← (encode_of_decode hdecode).2]
    exact (exec_keepsLatchOrRaises hexec).resolve_left fun hkept => hfault (hkept.trans hf)
  · exact absurd hf hfault

/-! ## The end of the cycle, with and without a fault (R69 to R72) -/

/-- Settles O8: a healthy cycle ticks (`State.endCycle_timersTicked`); a faulting one skips the timers, and its beep is
the silent one of the raise (`eq_raise_of_executes`). -/
theorem timersTickAtCycleEnd : Obligations.TimersTickAtCycleEnd := by
  unfold Obligations.TimersTickAtCycleEnd
  intro s t hf hexec
  refine ⟨t.endCycle, step_of_executes hf hexec, t.endCycle_agreeOutsideTimers, State.endCycle_timersTicked,
    fun hfault => ?faulting⟩
  case faulting =>
    obtain ⟨k, rfl⟩ := eq_raise_of_executes hf hexec hfault
    rw [State.endCycle_of_fault hfault]
    exact ⟨rfl, rfl, rfl⟩

/-- R72, R156: a step that ends with a fault latched is the advance and the raise by the fetched word; only the random
source and the boot mark move on. -/
theorem eq_raise_of_step {s t : State} (hf : s.fault = none) (h : step s = .next t) (hfault : t.fault ≠ none) :
    ∃ k, t = ((advanced s).raise k (wordAtPc s)).nextDraw.markRunning := by
  obtain ⟨u, hexec, rfl⟩ := exists_executes_of_step h
  rw [State.endCycle_fault] at hfault
  obtain ⟨k, rfl⟩ := eq_raise_of_executes hf hexec hfault
  exact ⟨k, State.endCycle_of_fault hfault⟩

/-- Settles O10: the record and the frame are those of the raise (`eq_raise_of_step`), and the latch stops the step and
the host's request. -/
theorem faultingCycleIsPrecise : Obligations.FaultingCycleIsPrecise := by
  unfold Obligations.FaultingCycleIsPrecise
  intro s t f hf hstep hfault
  have hstuck : step t = .fault (.stuck f) := step_of_fault hfault
  have hrequest : ∀ b : Byte, hostStep (.cycle b) t = .next (t, .cycleDone false (some f)) :=
    State.requestCycle_of_fault hfault
  obtain ⟨k, rfl⟩ := eq_raise_of_step hf hstep (by simp [hfault])
  obtain rfl := Option.some.inj hfault
  have haddr : s.pc + 2 - 2 = s.pc := BitVec.add_sub_cancel s.pc 2
  exact ⟨haddr, rfl, rfl, rfl, rfl, rfl, rfl, rfl, rfl, rfl, rfl, rfl, rfl, rfl, hstuck, hrequest⟩

end Sys2Proof.Machine
end

section
/-!
PROOFS. Control transfer (spec/41_control_transfer.md): jumps, call and return, and the conditional skips.
-/

namespace Sys2Proof.Machine

open Sys2Proof.Claims

/-! ## SYS and the jumps (R80, R82, R88) -/

/-- Settles O13: a target that is neither `0E0` nor `0EE` makes `SYS` well-formed, so `decode_encode` reads its word
back; the execute phase is the identity. -/
theorem sysChangesNothing : Obligations.SysChangesNothing := by
  unfold Obligations.SysChangesNothing
  intro nnn s
  refine ⟨fun hcls hret => ?_, rfl⟩
  have hwf : (Instr.sys nnn).wf = true := Bool.and_eq_true_iff.mpr ⟨bne_iff_ne.mpr hcls, bne_iff_ne.mpr hret⟩
  exact decode_encode (i := .sys nnn) hwf

/-- Settles O14: the word is the encoding of `JP` (`decode_encode`), and the execute phase writes `pc` alone. -/
theorem jumpSetsPc : Obligations.JumpSetsPc := by
  unfold Obligations.JumpSetsPc
  exact fun nnn s => ⟨decode_encode (i := .jp nnn) rfl, rfl⟩

/-- The top digit of an address as the register number of `JUMP_OFFSET_REG` = Vx (log entry 12), in numbers. -/
theorem addrX_eq (nnn : Addr) : addrX nnn = Fin.ofNat 16 (nnn.toNat / 256) := by
  refine Fin.ext ?_
  simp only [addrX, Fin.val_ofNat, BitVec.extractLsb'_toNat, Nat.shiftRight_eq_div_pow]
  omega

/-- R88: the offset register of a machine whose JUMP_OFFSET_REG is V0. -/
theorem jumpOffset_v0 (nnn : Addr) (s : State) : jumpOffset .v0 nnn s = s.v[(0 : Reg)] := rfl

/-- R88: the offset register of a machine whose JUMP_OFFSET_REG is Vx. -/
theorem jumpOffset_vx (nnn : Addr) (s : State) :
    jumpOffset .vx nnn s = s.v[(Fin.ofNat 16 (nnn.toNat / 256) : Reg)] := by
  rw [jumpOffset, addrX_eq]
  rfl

/-- An address plus a register wraps modulo 4096 (R8). -/
theorem toNat_add_zext12 (a : Addr) (b : Byte) : (a + zext12 b).toNat = (a.toNat + b.toNat) % 4096 := by
  rw [BitVec.toNat_add, toNat_zext12]

/-- Settles O15: the new `pc` is `NNN` plus the offset register (`toNat_add_zext12`), which JUMP_OFFSET_REG selects. -/
theorem jumpV0AddsV0 : Obligations.JumpV0AddsV0 := by
  unfold Obligations.JumpV0AddsV0
  intro nnn s
  refine ⟨decode_encode (i := .jpV0 nnn) rfl, _, rfl, rfl, fun hv0 => ?v0, fun hvx => ?vx⟩
  case v0 => rw [State.setPc_pc, hv0, toNat_add_zext12, jumpOffset_v0]
  case vx => rw [State.setPc_pc, hvx, toNat_add_zext12, jumpOffset_vx]

/-! ## Call and return (R81, R83) -/

/-- Settles O16: `State.push_cases` gives the two depths; the entry written is the one at the old `sp`. -/
theorem callPushesReturnAddress : Obligations.CallPushesReturnAddress := by
  unfold Obligations.CallPushesReturnAddress
  intro nnn s
  have hexec : exec (.call nnn) s = .next (s.push (encode (.call nnn)) s.pc (State.setPc nnn)) := rfl
  refine ⟨decode_encode (i := .call nnn) rfl, ?_⟩
  obtain ⟨hlt, hpush⟩ | ⟨hfull, hraise⟩ := State.push_cases (encode (.call nnn)) s.pc (State.setPc nnn) s
  · rw [hexec, hpush]
    refine ⟨fun _ => ⟨_, rfl, rfl, rfl, fun k => ?_⟩, fun hfull => by omega⟩
    simp [Vector.getElem_set, eq_comm]
  · rw [hexec, hraise]
    exact ⟨fun hlt => by omega, fun _ => rfl⟩

/-- R81: a pop that raises no fault changes `sp` and `pc` alone. -/
theorem State.popPc_frame {w : InsnWord} {s : State} (hsp : 0 < s.sp.val) :
    s.popPc w = { s with sp := (s.popPc w).sp, pc := (s.popPc w).pc } := by
  obtain ⟨_, hpop⟩ | ⟨hzero, _⟩ := State.popPc_cases w s
  · rw [hpop]
  · omega

/-- Settles O17: with an entry in use the frame is `State.popPc_frame` and the entry read is that of
`State.popPc_of_sp_eq_succ`; with none `State.popPc_cases` leaves the raise. -/
theorem returnPopsPc : Obligations.ReturnPopsPc := by
  unfold Obligations.ReturnPopsPc
  intro s
  refine ⟨decode_encode (i := .ret) rfl, fun hused => ?pops, fun hempty => ?raises⟩
  case pops =>
    obtain ⟨n, hn⟩ := Nat.exists_eq_add_one.mpr hused
    obtain ⟨hpc, hsp⟩ := s.popPc_of_sp_eq_succ (w := encode .ret) (k := n) (by omega) hn
    refine ⟨s.popPc (encode .ret), rfl, State.popPc_frame hused, by rw [hsp, hn], fun k hk => ?_⟩
    obtain rfl : k.val = n := hk.trans hsp
    exact hpc
  case raises =>
    obtain ⟨hused, _⟩ | ⟨_, hraise⟩ := State.popPc_cases (encode .ret) s
    · omega
    · exact congrArg Host.Outcome.next hraise

/-! ## The skips (R84 to R87, R89, R125, R126)

Each skip executes as `State.skipIf` of its condition, stated here on the registers and keys themselves. -/

theorem exec_seImm_eq_skipIf (x : Reg) (nn : Byte) (s : State) :
    exec (.seImm x nn) s = .next (s.skipIf (decide (s.v[x] = nn))) := rfl

theorem exec_sneImm_eq_skipIf (x : Reg) (nn : Byte) (s : State) :
    exec (.sneImm x nn) s = .next (s.skipIf (decide (s.v[x] ≠ nn))) := by
  simp only [ne_eq, decide_not]
  rfl

theorem exec_seReg_eq_skipIf (x y : Reg) (s : State) :
    exec (.seReg x y) s = .next (s.skipIf (decide (s.v[x] = s.v[y]))) := rfl

theorem exec_sneReg_eq_skipIf (x y : Reg) (s : State) :
    exec (.sneReg x y) s = .next (s.skipIf (decide (s.v[x] ≠ s.v[y]))) := by
  simp only [ne_eq, decide_not]
  rfl

theorem exec_skp_eq_skipIf (x : Reg) (s : State) :
    exec (.skp x) s = .next (s.skipIf (s.keys.getLsbD (s.v[x].toNat % 16))) := by
  rw [← keyNumber_eq]
  rfl

theorem exec_sknp_eq_skipIf (x : Reg) (s : State) :
    exec (.sknp x) s = .next (s.skipIf (!s.keys.getLsbD (s.v[x].toNat % 16))) := by
  rw [← keyNumber_eq]
  rfl

/-- R89: a skip on a condition, written as a condition on `pc`. -/
theorem State.skipIf_decide (s : State) (p : Prop) [Decidable p] :
    s.skipIf (decide p) = { s with pc := if p then s.pc + 2 else s.pc } := by
  rw [State.skipIf_eq]
  simp only [decide_eq_true_eq]

/-- Settles O19: the words are encodings (`decode_encode`), and each instruction is a skip on its comparison. -/
theorem compareSkips : Obligations.CompareSkips := by
  unfold Obligations.CompareSkips
  intro x y nn s
  rw [exec_seImm_eq_skipIf, exec_sneImm_eq_skipIf, exec_seReg_eq_skipIf, exec_sneReg_eq_skipIf]
  simp only [State.skipIf_decide, and_true]
  exact ⟨decode_encode (i := .seImm x nn) rfl, decode_encode (i := .sneImm x nn) rfl,
    decode_encode (i := .seReg x y) rfl, decode_encode (i := .sneReg x y) rfl⟩

/-- R67, R89: the advance and a skip make 4 or 2, modulo 4096. -/
theorem toNat_pc_skipIf_advanced (s : State) (c : Bool) :
    ((advanced s).skipIf c).pc.toNat = (s.pc.toNat + if c then 4 else 2) % 4096 := by
  rw [State.skipIf_eq]
  cases c
  · exact BitVec.toNat_add s.pc 2
  · change (s.pc + 2 + 2).toNat = (s.pc.toNat + 4) % 4096
    rw [BitVec.add_assoc]
    exact BitVec.toNat_add s.pc 4

/-- R65: the end of the cycle leaves `pc` alone. -/
theorem State.endCycle_pc (t : State) : t.endCycle.pc = t.pc := by
  rw [State.endCycle_frame]

/-- R89: before the end of the cycle a skip has changed `pc` alone. -/
theorem agreeOutsideTimers_endCycle_skipIf (s : State) (c : Bool) :
    AgreeOutsideTimers { s with pc := ((advanced s).skipIf c).pc } ((advanced s).skipIf c).endCycle := by
  have hframe : (advanced s).skipIf c = { s with pc := ((advanced s).skipIf c).pc } := by
    rw [State.skipIf_eq]
    rfl
  rw [← hframe]
  exact State.endCycle_agreeOutsideTimers _

/-- Settles O20: whichever of the six it is, the execute phase is `State.skipIf` of its condition on the advanced state,
and the end of the cycle touches the timers only. -/
theorem skipsAdvanceByFour : Obligations.SkipsAdvanceByFour := by
  unfold Obligations.SkipsAdvanceByFour
  intro s i c x y nn hf hdecode hskip
  have hexec : exec i (advanced s) = .next ((advanced s).skipIf c) := by
    obtain ⟨rfl, rfl⟩ | ⟨rfl, rfl⟩ | ⟨rfl, rfl⟩ | ⟨rfl, rfl⟩ | ⟨rfl, rfl⟩ | ⟨rfl, rfl⟩ := hskip
    · exact exec_seImm_eq_skipIf x nn (advanced s)
    · exact exec_sneImm_eq_skipIf x nn (advanced s)
    · exact exec_seReg_eq_skipIf x y (advanced s)
    · exact exec_sneReg_eq_skipIf x y (advanced s)
    · exact exec_skp_eq_skipIf x (advanced s)
    · exact exec_sknp_eq_skipIf x (advanced s)
  have hstep : step s = .next ((advanced s).skipIf c).endCycle := step_of_executes hf (.inl ⟨i, hdecode, hexec⟩)
  refine ⟨_, hstep, ?_, ?_⟩
  · rw [State.endCycle_pc, toNat_pc_skipIf_advanced]
  · rw [State.endCycle_pc]
    exact agreeOutsideTimers_endCycle_skipIf s c

end Sys2Proof.Machine
end

section
/-!
PROOFS. The register instructions (spec/42_register_alu.md): load, arithmetic, logic, shift, random.
-/

namespace Sys2Proof.Machine

open Sys2Proof.Claims

/-! ## One register after a register instruction, in numbers and in bits -/

/-- R95: each register after a write of one register, in numbers. -/
theorem State.setReg_entry_toNat (s : State) (x r : Reg) (b : Byte) :
    (s.setReg x b).v[r].toNat = if r = x then b.toNat else s.v[r].toNat := by
  rw [State.setReg_entry, apply_ite BitVec.toNat]

/-- R95: each register after a write of one register, bit by bit. -/
theorem State.setReg_entry_getLsbD (s : State) (x r : Reg) (b : Byte) (j : Nat) :
    (s.setReg x b).v[r].getLsbD j = if r = x then b.getLsbD j else s.v[r].getLsbD j := by
  rw [State.setReg_entry, apply_ite (BitVec.getLsbD · j)]

/-- R11: the flag as a number. -/
theorem toNat_flagByte (c : Bool) : (flagByte c).toNat = c.toNat := by
  cases c <;> rfl

/-- R95, D9: VF holds the flag whatever `x` is, because it is written last. -/
theorem State.setResultAndFlag_entry_toNat (s : State) (x r : Reg) (b : Byte) (c : Bool) :
    (s.setResultAndFlag x b c).v[r].toNat =
      if r = 15 then c.toNat else if r = x then b.toNat else s.v[r].toNat := by
  change ((s.setReg x b).setReg 15 (flagByte c)).v[r].toNat = _
  rw [State.setReg_entry_toNat, State.setReg_entry_toNat, toNat_flagByte]

/-! ## The flags and the shift operand -/

/-- R102: the carry out is set where the sum does not fit a byte. -/
theorem toNat_carryOut (a b : Byte) : (carryOut a b).toNat = if a.toNat + b.toNat > 255 then 1 else 0 := by
  have ha := a.isLt
  have hb := b.isLt
  have hbit : (carryOut a b).toNat = (a.toNat + b.toNat) / 256 % 2 := by
    rw [carryOut, ← BitVec.testBit_toNat, Nat.toNat_testBit, BitVec.toNat_add, BitVec.toNat_setWidth,
      BitVec.toNat_setWidth]
    omega
  rw [hbit]
  split <;> omega

/-- R95, R103, R105: the no-borrow flag compares the operands, equality included. -/
theorem toNat_noBorrow (a b : Byte) : (noBorrow a b).toNat = if a.toNat ≥ b.toNat then 1 else 0 := by
  rw [noBorrow, Bool.toNat, Bool.cond_decide]
  rfl

/-- R104: a right shift shifts out the remainder. -/
theorem toNat_shiftedOutRight (a : Byte) : (shiftedOutRight a).toNat = a.toNat % 2 := by
  rw [shiftedOutRight, ← BitVec.testBit_toNat, Nat.toNat_testBit, pow_zero, Nat.div_one]

/-- R106: a left shift shifts out the top bit. -/
theorem toNat_shiftedOutLeft (a : Byte) : (shiftedOutLeft a).toNat = a.toNat / 128 := by
  have ha := a.isLt
  rw [shiftedOutLeft, ← BitVec.testBit_toNat, Nat.toNat_testBit]
  omega

/-- R95: a byte difference wraps modulo 256. -/
theorem toNat_byte_sub (a b : Byte) : (a - b).toNat = (a.toNat + 256 - b.toNat) % 256 := by
  have hb := b.isLt
  rw [BitVec.toNat_sub]
  omega

/-- R104: a right shift by one place halves. -/
theorem toNat_byte_shiftRight_one (a : Byte) : (a >>> 1).toNat = a.toNat / 2 := by
  rw [BitVec.toNat_ushiftRight, Nat.shiftRight_one]

/-- R106: a left shift by one place doubles modulo 256. -/
theorem toNat_byte_shiftLeft_one (a : Byte) : (a <<< 1).toNat = 2 * a.toNat % 256 := by
  rw [BitVec.toNat_shiftLeft, Nat.shiftLeft_eq, pow_one, Nat.mul_comm]

/-- R104, R106, D8: the operand of a shift is the register SHIFT_SOURCE names. -/
theorem shiftOperand_eq (x y : Reg) (s : State) :
    shiftOperand s.params.shiftSource x y s = s.v[shiftSourceReg x y s] := by
  cases h : s.params.shiftSource
  case vx => rw [shiftSourceReg, h, if_neg (by decide)]; rfl
  case vy => rw [shiftSourceReg, h, if_pos rfl]; rfl

/-! ## Loads and the instructions without a flag (R96 to R101, R107)

The word of each is an encoding (`decode_encode`), and the execute phase is one `State.setReg`, whose frame is that of
the record. -/

/-- Settles O21: `State.setReg_entry` for the byte loaded. -/
theorem loadsSetOneRegister : Obligations.LoadsSetOneRegister := by
  unfold Obligations.LoadsSetOneRegister
  intro x y nn s
  exact ⟨decode_encode (i := .ldImm x nn) rfl, decode_encode (i := .ldReg x y) rfl,
    ⟨_, rfl, rfl, fun r => State.setReg_entry s x r nn⟩, ⟨_, rfl, rfl, fun r => State.setReg_entry s x r s.v[y]⟩⟩

/-- Settles O22: the byte written is a sum of bytes, which wraps. -/
theorem addImmediateWrapsWithoutFlag : Obligations.AddImmediateWrapsWithoutFlag := by
  unfold Obligations.AddImmediateWrapsWithoutFlag
  intro x nn s
  refine ⟨decode_encode (i := .addImm x nn) rfl, _, rfl, rfl, fun r => ?_⟩
  rw [State.setReg_entry_toNat, BitVec.toNat_add]
  rfl

/-- Settles O23: each bit of the byte written is the operation on the bits of the operands. -/
theorem logicIsBitwiseWithoutFlag : Obligations.LogicIsBitwiseWithoutFlag := by
  unfold Obligations.LogicIsBitwiseWithoutFlag
  intro x y s
  refine ⟨decode_encode (i := .orReg x y) rfl, decode_encode (i := .andReg x y) rfl,
    decode_encode (i := .xorReg x y) rfl, ⟨_, rfl, rfl, fun r j => ?or⟩, ⟨_, rfl, rfl, fun r j => ?and⟩,
    ⟨_, rfl, rfl, fun r j => ?xor⟩⟩
  case or => rw [State.setReg_entry_getLsbD, BitVec.getLsbD_or]; rfl
  case and => rw [State.setReg_entry_getLsbD, BitVec.getLsbD_and]; rfl
  case xor => rw [State.setReg_entry_getLsbD, BitVec.getLsbD_xor]; rfl

/-- Settles O27: each bit of the byte written is that of the random port under the mask. -/
theorem randomIsMasked : Obligations.RandomIsMasked := by
  unfold Obligations.RandomIsMasked
  intro x nn s
  refine ⟨decode_encode (i := .rnd x nn) rfl, _, rfl, rfl, fun r j => ?_⟩
  rw [State.setReg_entry_getLsbD, BitVec.getLsbD_and]

/-! ## The instructions with a flag (R102 to R106)

The execute phase of each is one `State.setResultAndFlag`; what remains is its result and its flag in numbers. -/

/-- Settles O24: the flag is `toNat_carryOut`. -/
theorem addSetsCarry : Obligations.AddSetsCarry := by
  unfold Obligations.AddSetsCarry
  intro x y s
  refine ⟨decode_encode (i := .addReg x y) rfl, _, rfl, rfl, fun r => ?_⟩
  rw [State.setResultAndFlag_entry_toNat, toNat_carryOut, BitVec.toNat_add]
  rfl

/-- Settles O25: either order of the operands has `toNat_byte_sub` and `toNat_noBorrow`. -/
theorem subtractionsSetNoBorrow : Obligations.SubtractionsSetNoBorrow := by
  unfold Obligations.SubtractionsSetNoBorrow
  intro x y s
  refine ⟨decode_encode (i := .sub x y) rfl, decode_encode (i := .subn x y) rfl, ⟨_, rfl, rfl, fun r => ?sub⟩,
    ⟨_, rfl, rfl, fun r => ?subn⟩⟩
  case sub => rw [State.setResultAndFlag_entry_toNat, toNat_noBorrow, toNat_byte_sub]; rfl
  case subn => rw [State.setResultAndFlag_entry_toNat, toNat_noBorrow, toNat_byte_sub]; rfl

/-- Settles O26: once `shiftOperand_eq` names the operand, both values of SHIFT_SOURCE have one argument. -/
theorem shiftsCaptureTheBitOut : Obligations.ShiftsCaptureTheBitOut := by
  unfold Obligations.ShiftsCaptureTheBitOut
  intro x y s
  refine ⟨decode_encode (i := .shr x y) rfl, decode_encode (i := .shl x y) rfl, ⟨_, rfl, rfl, fun r => ?shr⟩,
    ⟨_, rfl, rfl, fun r => ?shl⟩⟩
  case shr =>
    rw [State.setResultAndFlag_entry_toNat, shiftOperand_eq, toNat_shiftedOutRight, toNat_byte_shiftRight_one]
  case shl =>
    rw [State.setResultAndFlag_entry_toNat, shiftOperand_eq, toNat_shiftedOutLeft, toNat_byte_shiftLeft_one]

end Sys2Proof.Machine
end

section
/-!
PROOFS. The display instructions (spec/43_display.md): clear, the cells and the collision of a sprite, the count of its
cells, and the double draw.
-/

namespace Sys2Proof.Machine

open Sys2Proof.Claims

/-! ## The cells and the collision of DXYN in one state (R115, R117) -/

/-- The cells that the sprite loops cover are the unclipped 1 bits of the sprite. -/
theorem spriteCovers_eq_spritePixel (x y : Reg) (n : Height) (s : State) (row : Fin 32) (col : Fin 64) :
    spriteCovers (fun r => s.readByte (s.atI r)) (s.v[x].toNat % 64) (s.v[y].toNat % 32) n.val row col =
      spritePixel x y n s row col := by
  simp only [spriteCovers, rowCovers, spritePixel, State.atI, Bool.decide_and, Bool.and_assoc]

theorem spriteResult_cell (x y : Reg) (n : Height) (s : State) (row : Fin 32) (col : Fin 64) :
    (spriteResult x y n s).1[row][col] = (s.disp[row][col] ^^ spritePixel x y n s row col) := by
  rw [← spriteCovers_eq_spritePixel]
  exact drawSprite_cell _ _ _ _ s.disp row col

theorem spriteResult_hit (x y : Reg) (n : Height) (s : State) :
    (spriteResult x y n s).2 = true ↔
      ∃ (row : Fin 32) (col : Fin 64), spritePixel x y n s row col = true ∧ s.disp[row][col] = true := by
  simp only [← spriteCovers_eq_spritePixel]
  exact drawSprite_hit _ _ _ _ s.disp

theorem flagByte_eq_one_iff (c : Bool) : flagByte c = 1 ↔ c = true := by
  cases c <;> decide

/-! ## What DXYN can do, said once (R117) -/

section

variable {x y : Reg} {n : Height} {s t : State}

theorem exec_drw_frame (h : exec (.drw x y n) s = .next t) : t = { s with v := t.v, disp := t.disp } := by
  obtain rfl := Host.Outcome.next.inj h
  rfl

theorem exec_drw_cell (h : exec (.drw x y n) s = .next t) (row : Fin 32) (col : Fin 64) :
    t.disp[row][col] = (s.disp[row][col] ^^ spritePixel x y n s row col) := by
  obtain rfl := Host.Outcome.next.inj h
  exact spriteResult_cell x y n s row col

/-- VF is written last, and every other register is kept. -/
theorem exec_drw_entry (h : exec (.drw x y n) s = .next t) (r : Reg) :
    t.v[r] = if r = 15 then flagByte (spriteResult x y n s).2 else s.v[r] := by
  obtain rfl := Host.Outcome.next.inj h
  exact State.setReg_entry _ 15 r _

theorem exec_drw_flag_eq_one_iff (h : exec (.drw x y n) s = .next t) :
    t.v[(15 : Reg)] = 1 ↔
      ∃ (row : Fin 32) (col : Fin 64), spritePixel x y n s row col = true ∧ s.disp[row][col] = true := by
  rw [exec_drw_entry h, if_pos rfl, flagByte_eq_one_iff, spriteResult_hit]

/-- VF is written in every case: without a collision it is 0. -/
theorem exec_drw_flag_eq_zero (h : exec (.drw x y n) s = .next t)
    (hnone : ∀ (row : Fin 32) (col : Fin 64), spritePixel x y n s row col = true → s.disp[row][col] = false) :
    t.v[(15 : Reg)] = 0 := by
  have hhit : (spriteResult x y n s).2 = false := by
    rw [← Bool.not_eq_true, spriteResult_hit]
    rintro ⟨row, col, hpixel, hon⟩
    exact Bool.false_ne_true ((hnone row col hpixel).symm.trans hon)
  rw [exec_drw_entry h, if_pos rfl, hhit]
  rfl

/-- A cell has changed exactly where the sprite has an unclipped 1 bit. -/
theorem exec_drw_cell_ne_iff (h : exec (.drw x y n) s = .next t) (row : Fin 32) (col : Fin 64) :
    t.disp[row][col] ≠ s.disp[row][col] ↔ spritePixel x y n s row col = true := by
  rw [exec_drw_cell h]
  cases s.disp[row][col] <;> simp

end

/-- Settles O28: the display is `Display.blank`. -/
theorem clearScreenTurnsEveryCellOff : Obligations.ClearScreenTurnsEveryCellOff := by
  unfold Obligations.ClearScreenTurnsEveryCellOff
  intro s
  exact ⟨decode_encode (i := .cls) rfl, _, rfl, rfl, Display.cell_blank⟩

/-- Settles O29: the lemmas about what `DXYN` can do. -/
theorem drawXorsSpriteAndSetsCollision : Obligations.DrawXorsSpriteAndSetsCollision := by
  unfold Obligations.DrawXorsSpriteAndSetsCollision
  intro x y n s
  obtain ⟨t, h⟩ : ∃ t, exec (.drw x y n) s = .next t := ⟨_, rfl⟩
  refine ⟨decode_encode (i := .drw x y n) rfl, t, h, exec_drw_frame h, exec_drw_cell h,
    (exec_drw_flag_eq_one_iff h).mpr, exec_drw_flag_eq_zero h, fun r hr => ?_⟩
  rw [exec_drw_entry h, if_neg hr]

/-! ## The cells of a sprite, counted by its offsets (R118) -/

/-- The cell at row offset `q.1` and column offset `q.2` from the anchor `(x0, y0)`, for offsets on the screen. -/
def cellAtOffset (x0 y0 : Nat) (q : Fin 16 × Fin 8) : Fin 32 × Fin 64 :=
  (Fin.ofNat 32 (y0 + q.1.val), Fin.ofNat 64 (x0 + q.2.val))

theorem cellAtOffset_eq_iff {x0 y0 : Nat} {q : Fin 16 × Fin 8} (hrow : y0 + q.1.val ≤ 31) (hcol : x0 + q.2.val ≤ 63)
    (p : Fin 32 × Fin 64) :
    cellAtOffset x0 y0 q = p ↔ p.1.val = y0 + q.1.val ∧ p.2.val = x0 + q.2.val := by
  simp only [cellAtOffset, Prod.ext_iff, Fin.ext_iff, Fin.val_ofNat]
  omega

/-- The offset `q` is on the screen, and its bit of the sprite is 1. -/
def spriteBit (x y : Reg) (n : Height) (s : State) (q : Fin 16 × Fin 8) : Prop :=
  q.1.val < n.val ∧ s.v[y].toNat % 32 + q.1.val ≤ 31 ∧ s.v[x].toNat % 64 + q.2.val ≤ 63 ∧
    (s.readByte (s.idx + BitVec.ofNat 12 q.1.val)).getLsbD (7 - q.2.val) = true

/-- The unclipped 1 bits of the sprite are the cells of its offsets. -/
theorem spritePixel_iff_exists_spriteBit (x y : Reg) (n : Height) (s : State) (p : Fin 32 × Fin 64) :
    spritePixel x y n s p.1 p.2 = true ↔
      ∃ q, spriteBit x y n s q ∧ cellAtOffset (s.v[x].toNat % 64) (s.v[y].toNat % 32) q = p := by
  constructor
  · intro h
    simp only [spritePixel, Bool.and_eq_true, decide_eq_true_eq] at h
    obtain ⟨⟨hrow, hrowEnd, hcol, hcolEnd⟩, hbit⟩ := h
    obtain ⟨r, hr⟩ := Nat.exists_eq_add_of_le hrow
    obtain ⟨c, hc⟩ := Nat.exists_eq_add_of_le hcol
    rw [hr, hc, Nat.add_sub_cancel_left, Nat.add_sub_cancel_left] at hbit
    have hn : r < n.val := by omega
    have honRow : s.v[y].toNat % 32 + r ≤ 31 := by omega
    have honCol : s.v[x].toNat % 64 + c ≤ 63 := by omega
    exact ⟨(⟨r, by omega⟩, ⟨c, by omega⟩), ⟨hn, honRow, honCol, hbit⟩,
      (cellAtOffset_eq_iff honRow honCol p).mpr ⟨hr, hc⟩⟩
  · rintro ⟨q, ⟨hn, hrow, hcol, hbit⟩, hq⟩
    obtain ⟨hp1, hp2⟩ := (cellAtOffset_eq_iff hrow hcol p).mp hq
    simp only [spritePixel, Bool.and_eq_true, decide_eq_true_eq, hp1, hp2, Nat.add_sub_cancel_left]
    exact ⟨by omega, hbit⟩

/-- The offsets whose bit is 1 correspond one to one to the unclipped 1 bits of the sprite. -/
theorem cellAtOffset_bijOn (x y : Reg) (n : Height) (s : State) :
    Set.BijOn (cellAtOffset (s.v[x].toNat % 64) (s.v[y].toNat % 32)) {q | spriteBit x y n s q}
      {p | spritePixel x y n s p.1 p.2 = true} := by
  refine ⟨fun q hq => ?maps, ?inj, fun p hp => ?surj⟩
  case maps => exact (spritePixel_iff_exists_spriteBit x y n s _).mpr ⟨q, hq, rfl⟩
  case inj =>
    rintro q ⟨_, hrow, hcol, _⟩ q' ⟨_, hrow', hcol', _⟩ heq
    obtain ⟨h1, h2⟩ := (cellAtOffset_eq_iff hrow hcol _).mp heq
    obtain ⟨h1', h2'⟩ := (cellAtOffset_eq_iff hrow' hcol' _).mp rfl
    exact Prod.ext (Fin.ext (by omega)) (Fin.ext (by omega))
  case surj => exact (spritePixel_iff_exists_spriteBit x y n s p).mp hp

/-- A cell outside the rectangle of the sprite is none of its pixels. -/
theorem spritePixel_eq_false_of_outside {x y : Reg} {n : Height} {s : State} {row : Fin 32} {col : Fin 64}
    (h : row.val < s.v[y].toNat % 32 ∨ s.v[y].toNat % 32 + n.val ≤ row.val ∨ col.val < s.v[x].toNat % 64 ∨
      s.v[x].toNat % 64 + 8 ≤ col.val) : spritePixel x y n s row col = false := by
  have hout : ¬(s.v[y].toNat % 32 ≤ row.val ∧ row.val < s.v[y].toNat % 32 + n.val ∧
      s.v[x].toNat % 64 ≤ col.val ∧ col.val < s.v[x].toNat % 64 + 8) := by omega
  rw [spritePixel, decide_eq_false hout, Bool.false_and]

/-- Settles O30: the changed cells are the pixels of the sprite, and `cellAtOffset` is a bijection onto them from the
offsets whose bit is 1. -/
theorem drawStaysInRectangleAndCountsBits : Obligations.DrawStaysInRectangleAndCountsBits := by
  unfold Obligations.DrawStaysInRectangleAndCountsBits
  intro x y n s t h
  refine ⟨fun row col hout => ?outside, ?count⟩
  case outside => rw [exec_drw_cell h, spritePixel_eq_false_of_outside hout, Bool.xor_false]
  case count =>
    simp only [exec_drw_cell_ne_iff h]
    obtain ⟨hmaps, hinj, hsurj⟩ := cellAtOffset_bijOn x y n s
    symm
    apply Finset.card_nbij (cellAtOffset (s.v[x].toNat % 64) (s.v[y].toNat % 32)) <;>
      simp only [Finset.coe_filter_univ]
    · exact hmaps
    · exact hinj
    · exact hsurj

/-! ## Two draws in a row (R118) -/

/-- The sprite depends on the anchor registers, `I` and memory alone. -/
theorem spritePixel_congr {x y : Reg} {s u : State} (n : Height) (hx : u.v[x] = s.v[x]) (hy : u.v[y] = s.v[y])
    (hidx : u.idx = s.idx) (hmem : u.mem = s.mem) (hparams : u.params = s.params) :
    spritePixel x y n u = spritePixel x y n s := by
  funext row col
  simp only [spritePixel, hx, hy, hidx, State.readByte_congr hparams hmem]

/-- A draw does not change its own sprite, where VF is no anchor register. -/
theorem spritePixel_of_exec_drw {x y : Reg} {n : Height} {s t : State} (hx : x ≠ 15) (hy : y ≠ 15)
    (h : exec (.drw x y n) s = .next t) : spritePixel x y n t = spritePixel x y n s := by
  have hkept : ∀ r : Reg, r ≠ 15 → t.v[r] = s.v[r] := fun r hr => by rw [exec_drw_entry h, if_neg hr]
  rw [exec_drw_frame h]
  exact spritePixel_congr n (hkept x hx) (hkept y hy) rfl rfl rfl

/-- Settles O31: both draws have one sprite, so each cell it covers is flipped twice, and the second draw finds it on
exactly where the first lit it. -/
theorem drawTwiceRestoresDisplay : Obligations.DrawTwiceRestoresDisplay := by
  unfold Obligations.DrawTwiceRestoresDisplay
  intro x y n s t u w hx hy hst hdisp hidx hmem hparams hux huy huw
  have hpixel : spritePixel x y n u = spritePixel x y n s :=
    (spritePixel_congr n hux huy hidx hmem hparams).trans (spritePixel_of_exec_drw hx hy hst)
  have hcell : ∀ (row : Fin 32) (col : Fin 64),
      u.disp[row][col] = (s.disp[row][col] ^^ spritePixel x y n s row col) := by
    rw [hdisp]
    exact exec_drw_cell hst
  constructor
  · refine Display.ext_cell fun row col => ?_
    change w.disp[row][col] = s.disp[row][col]
    rw [exec_drw_cell huw, hpixel, hcell, Bool.xor_assoc, Bool.xor_self, Bool.xor_false]
  · rw [exec_drw_flag_eq_one_iff huw, hpixel]
    refine exists_congr fun row => exists_congr fun col => and_congr_right fun hbit => ?_
    rw [hcell, hbit, Bool.xor_true, Bool.not_eq_true']

end Sys2Proof.Machine
end

section
/-!
PROOFS. Keys and timers (spec/44_keys_timers.md): the key skips, the key read and a run that polls for a key, and the
timer loads.
-/

namespace Sys2Proof.Machine

open Sys2Proof.Claims

/-! ## The key skips (R125, R126) -/

/-- Settles O32: the words are encodings (`decode_encode`), and each instruction is a skip on one key. -/
theorem keySkipsTestOneKey : Obligations.KeySkipsTestOneKey := by
  unfold Obligations.KeySkipsTestOneKey
  intro x s
  refine ⟨decode_encode (i := .skp x) rfl, decode_encode (i := .sknp x) rfl, ?skp, ?sknp⟩
  case skp => rw [exec_skp_eq_skipIf, State.skipIf_eq]
  case sknp =>
    rw [exec_sknp_eq_skipIf, State.skipIf_eq]
    cases s.keys.getLsbD (s.v[x].toNat % 16) <;> rfl

/-! ## The key read (R128) -/

theorem exec_ldVxK_of_no_key {s : State} (hkeys : s.keys = 0) (x : Reg) :
    exec (.ldVxK x) s = .next (s.setPc (s.pc - 2)) := by
  change execLdVxK x s = _
  rw [execLdVxK, pickKey_eq_none.mpr hkeys]

theorem exec_ldVxK_of_key {s : State} {k : Nat} (hpick : pickKey s.params.keyPick s = some k) (x : Reg) :
    exec (.ldVxK x) s = .next (s.setReg x (BitVec.ofNat 8 k)) := by
  change execLdVxK x s = _
  rw [execLdVxK, hpick]

/-- Settles O33: a key is picked exactly when one is down (`pickKey_eq_none`), and `pickKey_eq_some` says which; its
number fits in a byte. -/
theorem keyReadTakesLowestKeyOrRepeats : Obligations.KeyReadTakesLowestKeyOrRepeats := by
  unfold Obligations.KeyReadTakesLowestKeyOrRepeats
  intro x s
  refine ⟨decode_encode (i := .ldVxK x) rfl, fun hkeys => exec_ldVxK_of_no_key hkeys x, fun hkeys => ?_⟩
  obtain ⟨k, hpick⟩ := Option.ne_none_iff_exists'.mp (mt pickKey_eq_none.mp hkeys)
  obtain ⟨hk, hdown, hlowest, hhighest⟩ := pickKey_eq_some hpick
  refine ⟨_, k, exec_ldVxK_of_key hpick x, rfl, fun r => ?_, hk, hdown, hlowest, hhighest⟩
  rw [State.setReg_entry_toNat, BitVec.toNat_ofNat, Nat.mod_eq_of_lt (by omega)]

/-! ## Runs whose cycles only tick (R69 to R71, R74) -/

/-- A cycle whose execute phase ends where the cycle began, with `pc` set back over the advance, does nothing but tick
the timers. -/
theorem cycleWith_of_executes_self {keys : Keys} {rnd : Byte} {s : State} (hf : s.fault = none)
    (hself : Executes { s with keys := keys, rnd := rnd } { s with keys := keys, rnd := rnd }) :
    ∃ t, cycleWith keys rnd s = .next t ∧ AgreeOutsideTimers { s with keys := keys, rnd := rnd } t ∧
      TimersTicked s t :=
  ⟨_, step_of_executes hf hself, State.endCycle_agreeOutsideTimers _,
    State.endCycle_timersTicked (t := { s with keys := keys, rnd := rnd }) hf⟩

/-- Where every cycle of a run keeps `P` and does to the timers what the ticks do, the run keeps `P` and lowers both
timers by its length. It raises the beep at most once, and not at all from ST = 0: no tick takes ST up again. -/
theorem runCycles_of_ticks {P : State → Prop} {ins : List (Keys × Byte)}
    (hcycle : ∀ s, P s → ∀ i ∈ ins, ∃ t, cycleWith i.1 i.2 s = .next t ∧ P t ∧ TimersTicked s t) {s : State}
    (hs : P s) :
    ∃ t, runCycles ins s = .next t ∧ P t ∧ t.dt.toNat = s.dt.toNat - ins.length ∧
      t.st.toNat = s.st.toNat - ins.length ∧ beepCount ins s ≤ min 1 s.st.toNat := by
  induction ins generalizing s with
  | nil => exact ⟨s, rfl, hs, rfl, rfl, Nat.zero_le _⟩
  | cons i ins ih =>
    obtain ⟨u, hu, hPu, hdt, hst, hbeep⟩ := hcycle s hs i List.mem_cons_self
    obtain ⟨t, hrun, hPt, hdt', hst', hbeeps⟩ := ih (fun s hs j hj => hcycle s hs j (List.mem_cons_of_mem i hj)) hPu
    have hone : u.beep = true ↔ s.st.toNat = 1 := hbeep.trans BitVec.toNat_inj.symm
    refine ⟨t, ?run, hPt, ?dt, ?st, ?beeps⟩
    case run => rw [runCycles, hu]; exact hrun
    case dt => rw [hdt', hdt, List.length_cons]; omega
    case st => rw [hst', hst, List.length_cons]; omega
    case beeps =>
      rw [beepCount, hu]
      change (if u.beep = true then 1 else 0) + beepCount ins u ≤ _
      simp only [hone]
      split <;> omega

/-- `u` agrees with `s` outside the timers and the beep, whatever its keys are: what a run that only ticks keeps. -/
def AgreeOutsideTimersAndKeys (s u : State) : Prop := AgreeOutsideTimers { s with keys := u.keys } u

theorem AgreeOutsideTimersAndKeys.refl (s : State) : AgreeOutsideTimersAndKeys s s :=
  ⟨rfl, rfl, rfl, rfl, rfl, rfl, rfl, rfl, rfl, rfl⟩

/-- A cycle with new keys that only ticks keeps the agreement. -/
theorem AgreeOutsideTimersAndKeys.tick {s u t : State} {keys : Keys} {rnd : Byte}
    (hsu : AgreeOutsideTimersAndKeys s u) (hut : AgreeOutsideTimers { u with keys := keys, rnd := rnd } t) :
    AgreeOutsideTimersAndKeys s t := by
  obtain ⟨hv, hpc, hidx, hstack, hsp, hmem, hdisp, _, hfault, hparams⟩ := hsu
  obtain ⟨hv', hpc', hidx', hstack', hsp', hmem', hdisp', _, hfault', hparams'⟩ := hut
  exact ⟨hv'.trans hv, hpc'.trans hpc, hidx'.trans hidx, hstack'.trans hstack, hsp'.trans hsp, hmem'.trans hmem,
    hdisp'.trans hdisp, rfl, hfault'.trans hfault, hparams'.trans hparams⟩

theorem AgreeOutsideTimersAndKeys.fault_eq {s u : State} (h : AgreeOutsideTimersAndKeys s u) : u.fault = s.fault := by
  obtain ⟨_, _, _, _, _, _, _, _, hfault, _⟩ := h
  exact hfault

/-- The fetch reads `pc` and memory alone (R66). -/
theorem AgreeOutsideTimersAndKeys.wordAtPc_eq {s u : State} (h : AgreeOutsideTimersAndKeys s u) :
    wordAtPc u = wordAtPc s := by
  obtain ⟨_, hpc, _, _, _, hmem, _, _, _, hparams⟩ := h
  have hread : ∀ a, u.readByte a = s.readByte a := State.readByte_congr hparams hmem
  rw [wordAtPc, hpc, hread, hread]
  rfl

/-! ## Polling for a key (R128, R189) -/

/-- With no key down `FX0A` undoes the advance. -/
theorem executes_self_of_polls {x : Reg} {s : State} (hdecode : decode (wordAtPc s) = .ok (.ldVxK x))
    (hkeys : s.keys = 0) : Executes s s := by
  have hback : (advanced s).setPc ((advanced s).pc - 2) = s := by
    rw [show (advanced s).pc - 2 = s.pc from BitVec.add_sub_cancel s.pc 2]
    rfl
  refine .inl ⟨_, hdecode, ?_⟩
  rw [exec_ldVxK_of_no_key (s := advanced s) hkeys, hback]

/-- Settles O34: each polling cycle fetches the first one's word again and only ticks (`executes_self_of_polls`), so the
run is one of `runCycles_of_ticks`. -/
theorem keyWaitPollsWhileTimersRun : Obligations.KeyWaitPollsWhileTimersRun := by
  unfold Obligations.KeyWaitPollsWhileTimersRun
  intro x draws s hf hdecode
  have hcycle : ∀ u, AgreeOutsideTimersAndKeys s u → ∀ i ∈ draws.map fun b => ((0 : Keys), b),
      ∃ t, cycleWith i.1 i.2 u = .next t ∧ AgreeOutsideTimersAndKeys s t ∧ TimersTicked u t := by
    intro u hu i hi
    obtain ⟨b, _, rfl⟩ := List.mem_map.mp hi
    have hword : decode (wordAtPc { u with keys := 0, rnd := b }) = .ok (.ldVxK x) := hu.wordAtPc_eq ▸ hdecode
    obtain ⟨t, ht, hagree, hticked⟩ :=
      cycleWith_of_executes_self (hu.fault_eq.trans hf) (executes_self_of_polls hword rfl)
    exact ⟨t, ht, hu.tick hagree, hticked⟩
  obtain ⟨t, hrun, ⟨hv, hpc, hidx, hstack, hsp, hmem, hdisp, _, hfault, hparams⟩, hdt, hst, hbeeps⟩ :=
    runCycles_of_ticks hcycle (.refl s)
  rw [List.length_map] at hdt hst
  exact ⟨t, hrun, hv, hpc, hidx, hstack, hsp, hmem, hdisp, hparams, hfault.trans hf, hdt, hst,
    hbeeps.trans (Nat.min_le_left _ _)⟩

/-! ## The timer loads (R127, R129, R130) -/

/-- Settles O35: each instruction is one write, to a register (`State.setReg_entry`) or to a timer. -/
theorem timerMoves : Obligations.TimerMoves := by
  unfold Obligations.TimerMoves
  intro x s
  exact ⟨decode_encode (i := .ldVxDt x) rfl, decode_encode (i := .ldDtVx x) rfl, decode_encode (i := .ldStVx x) rfl,
    ⟨_, rfl, rfl, fun r => State.setReg_entry s x r s.dt⟩, rfl, rfl⟩

end Sys2Proof.Machine
end

section
/-!
PROOFS. Index register and memory (spec/45_index_memory.md): the loads of `I`, the decimal digits, the block store and
the block load.
-/

namespace Sys2Proof.Machine

open Sys2Proof.Claims

/-! ## The index register (R140 to R142) -/

/-- R142, D15: no glyph address wraps, the whole byte counting. -/
theorem toNat_glyphAddr (b : Byte) : (glyphAddr b).toNat = 5 * b.toNat := by
  have hfont : glyphAddr b = 5#12 * zext12 b := BitVec.add_zero _
  have hprod : 5 * b.toNat < 4096 := by omega
  rw [hfont, BitVec.toNat_mul, toNat_zext12]
  exact Nat.mod_eq_of_lt hprod

/-- Settles O38: each execute phase writes `I` alone, and its value is that of `toNat_add_zext12` or
`toNat_glyphAddr`. -/
theorem indexIsLoadedAddedAndPointedAtGlyphs : Obligations.IndexIsLoadedAddedAndPointedAtGlyphs := by
  unfold Obligations.IndexIsLoadedAddedAndPointedAtGlyphs
  intro x nnn s
  exact ⟨decode_encode (i := .ldI nnn) rfl, decode_encode (i := .addI x) rfl, decode_encode (i := .ldF x) rfl, rfl,
    ⟨_, rfl, rfl, toNat_add_zext12 s.idx s.v[x]⟩, ⟨_, rfl, rfl, toNat_glyphAddr s.v[x]⟩⟩

/-! ## The stores at `I` under the condition of the statements (R36, R146) -/

/-- R36: the condition of the statements is the one the store tests. -/
theorem storeFaults_iff (s : State) (n : Nat) :
    storeFaults s n ↔ s.params.fontWritePolicy = .fault ∧ touchesFont s.idx n = true :=
  and_congr_right fun _ => (touchesFont_iff s.idx n).symm

section StoreAtI

variable {s : State} {bs : List Byte} (w : InsnWord) (after : State → State)

/-- R36, R156: an instruction whose stores fault raises FontWrite and does nothing else. -/
theorem State.storeAtI_of_storeFaults (h : storeFaults s bs.length) :
    s.storeAtI s.params.fontWritePolicy w bs after = s.raise .fontWrite w := by
  obtain ⟨hpolicy, htouches⟩ := (storeFaults_iff s bs.length).mp h
  rw [hpolicy, State.storeAtI_eq_raise w bs after s htouches]

/-- R35, R36: an instruction whose stores do not fault performs them and then what follows them. -/
theorem State.storeAtI_of_not_storeFaults (h : ¬ storeFaults s bs.length) :
    s.storeAtI s.params.fontWritePolicy w bs after = after (s.storeBytes s.params.fontWritePolicy s.idx bs) :=
  State.storeAtI_eq_storeBytes _ w bs after s ((storeFaults_iff s bs.length).not.mp h)

end StoreAtI

/-- Two addresses are `k` apart, `k` below the size of memory, exactly when the one is the other plus `k`. -/
theorem toNat_sub_eq_iff {a start : Addr} {k : Nat} (hk : k < 4096) :
    (a - start).toNat = k ↔ a = start + BitVec.ofNat 12 k := by
  constructor <;> intro h <;> bv_omega

/-! ## The decimal digits (R143) -/

/-- R143: a digit of `FX33` by its place in the list of the three. -/
theorem toNat_getD_bcdDigits (b c : Byte) (k : Nat) :
    ((bcdDigits b).getD k c).toNat =
      if k = 0 then b.toNat / 100 else if k = 1 then b.toNat / 10 % 10 else if k = 2 then b.toNat % 10
      else c.toNat := by
  match k with
  | 0 => exact BitVec.toNat_udiv
  | 1 => simp [bcdDigits]
  | 2 => exact BitVec.toNat_umod
  | _ + 3 => simp [bcdDigits]

/-- Settles O39: the stores are those of `State.readByte_storeBytes`, the digit at an address that of
`toNat_getD_bcdDigits`, and its place in the list the address's distance from `I`. -/
theorem bcdStoresThreeDigits : Obligations.BcdStoresThreeDigits := by
  unfold Obligations.BcdStoresThreeDigits
  intro x s
  refine ⟨decode_encode (i := .ldB x) rfl, fun hstores => ?stores, fun hfaults => ?faults⟩
  case stores =>
    refine ⟨_, congrArg Host.Outcome.next (State.storeAtI_of_not_storeFaults _ id hstores),
      State.storeBytes_frame _ _ _ s, fun a => ?_⟩
    have hzero : (a - s.idx).toNat = 0 ↔ a = s.idx := by
      simpa using toNat_sub_eq_iff (a := a) (start := s.idx) (k := 0) (by decide)
    have hone : (a - s.idx).toNat = 1 ↔ a = s.idx + 1 := toNat_sub_eq_iff (by decide)
    have htwo : (a - s.idx).toNat = 2 ↔ a = s.idx + 2 := toNat_sub_eq_iff (by decide)
    rw [id, State.readByte_storeBytes _ _ _ _ _ (by simp [bcdDigits]), apply_ite BitVec.toNat, toNat_getD_bcdDigits]
    simp only [hzero, hone, htwo]
    rfl
  case faults => exact congrArg Host.Outcome.next (State.storeAtI_of_storeFaults _ id hfaults)

/-! ## The block store (R144) -/

/-- R144, R146: the byte stores of `FX55` and the move of `I` after them change memory and `I` alone. -/
theorem State.bumpIdx_storeBytes_frame (x : Reg) (policy : Config.FontWritePolicy) (a : Addr) (bs : List Byte)
    (s : State) :
    State.bumpIdx s.params.loadStoreIncrementsI x (s.storeBytes policy a bs) =
      { s with mem := (s.storeBytes policy a bs).mem, idx := idxAfterBlock x s } := by
  rw [State.bumpIdx_eq, State.storeBytes_frame]
  rfl

/-- R146: the move of `I` after a block store or load touches no byte of memory. -/
theorem State.readByte_bumpIdx (increments : Bool) (x : Reg) (s : State) (a : Addr) :
    (State.bumpIdx increments x s).readByte a = s.readByte a := by
  rw [State.bumpIdx_eq]
  rfl

/-- R144: the registers of a block store fit in memory, so no byte is stored over another. -/
theorem State.length_regsUpTo_le (s : State) (x : Reg) : (s.regsUpTo x).length ≤ 4096 := by
  rw [State.length_regsUpTo]
  omega

/-- R144: the byte stores of `FX55` leave every byte at another address than the `X + 1` from `I` on. -/
theorem State.readByte_storeBytes_regsUpTo_kept {s : State} {x : Reg} (policy : Config.FontWritePolicy) {a : Addr}
    (hother : ∀ k : Reg, k ≤ x → a ≠ s.idx + BitVec.ofNat 12 k.val) :
    (s.storeBytes policy s.idx (s.regsUpTo x)).readByte a = s.readByte a := by
  have hpast : ¬ (a - s.idx).toNat ≤ x.val := fun hle =>
    hother ⟨(a - s.idx).toNat, by omega⟩ hle ((toNat_sub_eq_iff (by omega)).mp rfl)
  rw [State.readByte_storeBytes _ _ _ _ _ (s.length_regsUpTo_le x), State.getD_regsUpTo, dif_neg hpast, ite_self]

/-- Settles O40: a byte at `I + k` is dropped or is `V[k]` (`State.readByte_storeBytes_regsUpTo`), and the others are
kept. -/
theorem blockStoreWritesV0ToVx : Obligations.BlockStoreWritesV0ToVx := by
  unfold Obligations.BlockStoreWritesV0ToVx
  intro x s
  rw [← State.length_regsUpTo s x]
  refine ⟨decode_encode (i := .storeRegs x) rfl, fun hstores => ?stores, fun hfaults => ?faults⟩
  case stores =>
    refine ⟨_, congrArg Host.Outcome.next (State.storeAtI_of_not_storeFaults _ _ hstores), ?frame, fun k hk => ?written,
      fun a hother => ?kept⟩
    case frame =>
      rw [State.bumpIdx_storeBytes_frame]
    case written =>
      rw [State.readByte_bumpIdx]
      split
      · next hdropped => rw [State.readByte_storeBytes _ _ _ _ _ (s.length_regsUpTo_le x), if_pos hdropped]
      · next hkept => exact State.readByte_storeBytes_regsUpTo hk hkept
    case kept =>
      rw [State.readByte_bumpIdx, State.readByte_storeBytes_regsUpTo_kept _ hother]
  case faults => exact congrArg Host.Outcome.next (State.storeAtI_of_storeFaults _ _ hfaults)

/-! ## The block load (R145) -/

/-- R145, R146: the block load and the move of `I` after it change the registers and `I` alone. -/
theorem State.bumpIdx_loadFromI_frame (x : Reg) (s : State) :
    State.bumpIdx s.params.loadStoreIncrementsI x (s.loadFromI (x.val + 1)) =
      { s with v := (s.loadFromI (x.val + 1)).v, idx := idxAfterBlock x s } := by
  rw [State.bumpIdx_eq, State.loadFromI_frame]
  rfl

/-- R145: a register after `FX65`. -/
theorem State.bumpIdx_loadFromI_entry (increments : Bool) (x r : Reg) (s : State) :
    (State.bumpIdx increments x (s.loadFromI (x.val + 1))).v[r] =
      if r ≤ x then s.readByte (s.idx + BitVec.ofNat 12 r.val) else s.v[r] := by
  rw [State.bumpIdx_v]
  exact State.getReg_loadFromI s x r

/-- Settles O41: the frame is `State.bumpIdx_loadFromI_frame`, the registers are `State.bumpIdx_loadFromI_entry`. -/
theorem blockLoadReadsV0ToVx : Obligations.BlockLoadReadsV0ToVx := by
  unfold Obligations.BlockLoadReadsV0ToVx
  intro x s
  refine ⟨decode_encode (i := .loadRegs x) rfl, _, rfl, ?frame, fun r => ?registers⟩
  case frame => rw [State.bumpIdx_loadFromI_frame]
  case registers => exact State.bumpIdx_loadFromI_entry _ x r s

/-! ## The round trip (95_test_vectors.md S7) -/

/-- R144: the byte `k` past the old `I` after an `FX55` that raises nothing is `V[k]`, unless the policy drops it. -/
theorem readByte_of_exec_storeRegs {x k : Reg} {s t : State} (h : exec (.storeRegs x) s = .next t)
    (hhealthy : t.fault = none) (hk : k ≤ x) (hkept : ¬ storeDropped s (s.idx + BitVec.ofNat 12 k.val)) :
    t.readByte (s.idx + BitVec.ofNat 12 k.val) = s.v[k] := by
  obtain rfl | rfl := exec_storeRegs_cases h
  · cases hhealthy
  · rw [State.readByte_bumpIdx, State.readByte_storeBytes_regsUpTo hk hkept]

/-- R7, R26: the row of `FX55` in the access matrix does not mark the parameters. -/
theorem exec_storeRegs_params {x : Reg} {s t : State} (h : exec (.storeRegs x) s = .next t) : t.params = s.params :=
  exec_sameOutside h .params (by simp [writes_storeRegs])

/-- Settles O42: the load reads from the same addresses (`State.bumpIdx_loadFromI_entry`) what the store left there
(`readByte_of_exec_storeRegs`). -/
theorem blockStoreLoadRoundTrip : Obligations.BlockStoreLoadRoundTrip := by
  unfold Obligations.BlockStoreLoadRoundTrip
  intro x s t u _ hstore hhealthy hkept hparams hmem hidx
  refine ⟨_, rfl, fun k hk => ?_⟩
  have hsame : u.readByte (s.idx + BitVec.ofNat 12 k.val) = t.readByte (s.idx + BitVec.ofNat 12 k.val) :=
    State.readByte_congr (hparams.trans (exec_storeRegs_params hstore).symm) hmem _
  rw [State.bumpIdx_loadFromI_entry, if_pos hk, hidx, hsame, readByte_of_exec_storeRegs hstore hhealthy hk (hkept k hk)]

end Sys2Proof.Machine
end

section
/-!
PROOFS. Exceptions (spec/60_exceptions.md): the fault table, and the way out of the faulted state.
-/

namespace Sys2Proof.Machine

open Sys2Proof.Claims

/-! ## The kind of fault that the execute phase latches (R155, R157 to R159) -/

section Healthy

variable {s : State} (hf : s.fault = none)

include hf

theorem faultKind_eq_none {t : State} (hkept : t.fault = s.fault) : t.fault.map FaultRecord.kind = none := by
  rw [hkept, hf, Option.map_none]

/-- R157: a push overflows exactly on a full stack. -/
theorem State.pushAndJump_faultKind (w : InsnWord) (a target : Addr) :
    (s.push w a (State.setPc target)).fault.map FaultRecord.kind =
      if s.sp.val = 16 then some .stackOverflow else none := by
  obtain ⟨hroom, hpush⟩ | ⟨hfull, hraise⟩ := State.push_cases w a (State.setPc target) s
  · rw [hpush, if_neg (by omega)]
    exact faultKind_eq_none hf rfl
  · rw [hraise, if_pos hfull]
    rfl

/-- R158: a pop underflows exactly on an empty stack. -/
theorem State.popPc_faultKind (w : InsnWord) :
    (s.popPc w).fault.map FaultRecord.kind = if s.sp.val = 0 then some .stackUnderflow else none := by
  obtain ⟨hused, hpop⟩ | ⟨hempty, hraise⟩ := State.popPc_cases w s
  · rw [hpop, if_neg (by omega)]
    exact faultKind_eq_none hf rfl
  · rw [hraise, if_pos hempty]
    rfl

/-- R36, R159: the stores at `I` raise FontWrite exactly under the condition of the statements. -/
theorem State.storeAtI_faultKind (w : InsnWord) (bs : List Byte) {after : State → State}
    (hafter : ∀ u : State, (after u).fault = u.fault) :
    (s.storeAtI s.params.fontWritePolicy w bs after).fault.map FaultRecord.kind =
      if storeFaults s bs.length then some .fontWrite else none := by
  split
  · next hfaults =>
    rw [State.storeAtI_of_storeFaults w after hfaults]
    rfl
  · next hstores =>
    rw [State.storeAtI_of_not_storeFaults w after hstores]
    refine faultKind_eq_none hf ?_
    rw [hafter, State.storeBytes_frame]

/-- R155: from a healthy state `CALL`, `RET` and the two stores latch the fault whose condition they meet, and every other
instruction keeps the latch clear. -/
theorem exec_faultKind {i : Instr} {t : State} (h : exec i s = .next t) :
    t.fault.map FaultRecord.kind = faultCondition i s := by
  cases i
  case ldVxK => obtain rfl | ⟨_, rfl⟩ := exec_ldVxK_cases h <;> exact faultKind_eq_none hf rfl
  all_goals obtain rfl := Host.Outcome.next.inj h
  case ret => exact State.popPc_faultKind hf _
  case call => exact State.pushAndJump_faultKind hf _ _ _
  case ldB => exact State.storeAtI_faultKind hf _ _ (after := id) fun _ => rfl
  case storeRegs x =>
    have hkind := State.storeAtI_faultKind hf (encode (.storeRegs x)) (s.regsUpTo x)
      (State.bumpIdx_fault s.params.loadStoreIncrementsI x)
    rwa [State.length_regsUpTo] at hkind
  case seImm | sneImm | seReg | sneReg | skp | sknp => exact faultKind_eq_none hf (s.skipIf_fault _)
  case loadRegs => exact faultKind_eq_none hf ((State.bumpIdx_fault _ _ _).trans (s.loadFromI_fault _))
  all_goals exact faultKind_eq_none hf rfl

end Healthy

/-- R155: no condition of the fault table looks at `pc`, so the advance does not change which one is met. -/
theorem faultCondition_advanced (i : Instr) (s : State) : faultCondition i (advanced s) = faultCondition i s := by
  cases i <;> rfl

/-- Settles O11: the kind is that of the execute phase (`exec_faultKind`), which begins in the advanced state, and the end
of the cycle leaves the latch alone. -/
theorem faultsExactlyUnderTheirConditions : Obligations.FaultsExactlyUnderTheirConditions := by
  unfold Obligations.FaultsExactlyUnderTheirConditions
  refine ⟨fun s t hf hstep => ?_, rfl, rfl, rfl⟩
  obtain ⟨u, ⟨i, hdecode, hexec⟩ | ⟨⟨e, hdecode⟩, rfl⟩, rfl⟩ := exists_executes_of_step hstep
  · have hkind : u.fault.map FaultRecord.kind = faultCondition i (advanced s) :=
      exec_faultKind (s := advanced s) hf hexec
    rw [State.endCycle_fault, hdecode, hkind, faultCondition_advanced]
  · rw [State.endCycle_fault, hdecode]
    exact faultKind_eq_none hf rfl

/-! ## The way out of the faulted state (R165) -/

/-- R182, R183: a `rom_load` that is not refused deposits the image and ends the fresh state, or gives LoadError and
changes nothing. -/
theorem State.romLoad_cases {bytes : List Byte} {s t : State} {r : HostReply} (h : s.romLoad bytes = .next (t, r)) :
    s.boot = .fresh ∧
      ((bytes.length ≤ Config.romMax ∧ t = { s.putBytes Config.romBase bytes with boot := .loaded } ∧ r = .done) ∨
        (Config.romMax < bytes.length ∧ t = s ∧ r = .loadError)) := by
  unfold State.romLoad at h
  split at h
  · next hfresh =>
    refine ⟨hfresh, ?_⟩
    split at h
    · next hfits =>
      cases h
      exact .inl ⟨hfits, rfl, rfl⟩
    · next hlong =>
      cases h
      exact .inr ⟨Nat.lt_of_not_le hlong, rfl, rfl⟩
  · cases h
  · cases h

/-- R182: `rom_load` does not touch the latch. -/
theorem State.romLoad_fault {bytes : List Byte} {s t : State} {r : HostReply} (h : s.romLoad bytes = .next (t, r)) :
    t.fault = s.fault := by
  obtain ⟨_, ⟨_, rfl, _⟩ | ⟨_, rfl, _⟩⟩ := State.romLoad_cases h
  · rw [State.putBytes_frame]
  · rfl

/-- R72, R165: every host action but `reset` leaves a latched fault latched. -/
theorem hostStep_keeps_fault {a : HostAction} {s t : State} {r : HostReply} (ha : a ≠ .reset) (hfault : s.fault ≠ none)
    (h : hostStep a s = .next (t, r)) : t.fault = s.fault := by
  cases a with
  | reset => exact absurd rfl ha
  | romLoad bytes => exact State.romLoad_fault h
  | setKeys keys =>
    cases h
    rfl
  | cycle rnd =>
    obtain ⟨record, hrecord⟩ := Option.ne_none_iff_exists'.mp hfault
    cases (State.requestCycle_of_fault hrecord rnd).symm.trans h
    rfl

/-- Settles O46: `reset` is `State.resetLive`, and `hostStep_keeps_fault` leaves no other action. -/
theorem onlyResetLeavesTheFaultedState : Obligations.OnlyResetLeavesTheFaultedState := by
  unfold Obligations.OnlyResetLeavesTheFaultedState
  refine ⟨fun _ => rfl, fun a s t r hfault hstep hclear => ?_⟩
  by_contra ha
  exact hfault ((hostStep_keeps_fault ha hfault hstep).symm.trans hclear)

end Sys2Proof.Machine
end

section
/-!
PROOFS. Reset and hazards (spec/70_reset_and_hazards.md): the ROM load, runs of host actions, the tick in the cycle that
writes a timer, runs of cycles that count DT down, and the normal end of a run.
-/

namespace Sys2Proof.Machine

open Sys2Proof.Claims

/-! ## The ROM load (R182, R183) -/

theorem State.romLoad_of_fits {bytes : List Byte} {s : State} (hboot : s.boot = .fresh)
    (hfits : bytes.length ≤ Config.romMax) :
    s.romLoad bytes = .next ({ s.putBytes Config.romBase bytes with boot := .loaded }, .done) := by
  simp only [State.romLoad, hboot, if_pos hfits]

theorem State.romLoad_of_long {bytes : List Byte} {s : State} (hboot : s.boot = .fresh)
    (hlong : Config.romMax < bytes.length) : s.romLoad bytes = .next (s, .loadError) := by
  simp only [State.romLoad, hboot, if_neg (Nat.not_le_of_lt hlong)]

theorem State.romLoad_of_not_fresh {s : State} (hboot : s.boot ≠ .fresh) (bytes : List Byte) :
    s.romLoad bytes = .refused .romLoadNotAllowed := by
  cases h : s.boot with
  | fresh => exact absurd h hboot
  | loaded => simp only [State.romLoad, h]
  | running => simp only [State.romLoad, h]

section Image

variable {bytes : List Byte} (hfits : bytes.length ≤ 3584)

include hfits

/-- R182: byte `k` of the image lands at `0x200 + k`, which no image of at most 3584 bytes carries past 0xFFF. -/
theorem State.readByte_putBytes_romBase (s : State) {k : Nat} (hk : k < bytes.length) :
    (s.putBytes Config.romBase bytes).readByte (BitVec.ofNat 12 (0x200 + k)) = bytes[k] := by
  have hoffset : (BitVec.ofNat 12 (0x200 + k) - Config.romBase).toNat = k := by bv_omega
  rw [State.readByte_putBytes bytes _ _ s (by omega), hoffset, List.getD_eq_getElem _ _ hk]

/-- R182: the bytes before 0x200 and past the image are what they were. -/
theorem State.readByte_putBytes_romBase_outside (s : State) {a : Addr}
    (ha : a.toNat < 0x200 ∨ 0x200 + bytes.length ≤ a.toNat) :
    (s.putBytes Config.romBase bytes).readByte a = s.readByte a := by
  have hpast : bytes.length ≤ (a - Config.romBase).toNat := by bv_omega
  rw [State.readByte_putBytes bytes _ _ s (by omega), List.getD_eq_default _ _ hpast]

end Image

/-- Settles O47: `State.readByte_putBytes_romBase` for the bytes of the image, `State.readByte_putBytes_romBase_outside`
for the others. -/
theorem romLoadDepositsTheImage : Obligations.RomLoadDepositsTheImage := by
  unfold Obligations.RomLoadDepositsTheImage
  intro bytes s
  refine ⟨fun hboot hfits => ?deposits, State.romLoad_of_long, fun hboot => State.romLoad_of_not_fresh hboot bytes⟩
  case deposits =>
    refine ⟨_, State.romLoad_of_fits hboot hfits, ?frame, fun k hk => State.readByte_putBytes_romBase hfits s hk,
      fun a ha => State.readByte_putBytes_romBase_outside hfits s ha⟩
    case frame => rw [State.putBytes_frame]

/-! ## Runs of host actions keep the invariant (R187) -/

theorem State.putBytes_params (s : State) (a : Addr) (bytes : List Byte) : (s.putBytes a bytes).params = s.params := by
  rw [State.putBytes_frame]

/-- R32, R182: the host's stores of an image that fits keep the invariant: they lie past the font block. -/
theorem State.Inv.putImage {s : State} (hs : s.Inv) {bytes : List Byte} (hfits : bytes.length ≤ Config.romMax) :
    (s.putBytes Config.romBase bytes).Inv where
  memCanonical := by
    rw [State.putBytes_params]
    exact State.wf_putBytes bytes Config.romBase s hs.memCanonical
  fontIntact := by
    rw [State.putBytes_params]
    intro hpolicy a ha
    have hbelow : a.toNat < 0x200 := Nat.lt_trans ha (by decide)
    rw [State.readByte_putBytes_romBase_outside hfits s (.inl hbelow), State.putBytes_params]
    exact hs.fontIntact hpolicy a ha
  faultSilent := by
    rw [State.putBytes_frame]
    exact hs.faultSilent

theorem State.Inv.romLoad {s t : State} {bytes : List Byte} {r : HostReply} (hs : s.Inv)
    (h : s.romLoad bytes = .next (t, r)) : t.Inv := by
  obtain ⟨_, ⟨hfits, rfl, _⟩ | ⟨_, rfl, _⟩⟩ := State.romLoad_cases h
  · exact (hs.putImage hfits).congr rfl rfl rfl rfl
  · exact hs

/-- R165, R180: whatever the state was, a reset restores the invariant. -/
theorem State.resetLive_inv (s : State) : s.resetLive.Inv := (State.resetWith_inv s.params).congr rfl rfl rfl rfl

/-- R65, R72: a request is one step of a healthy engine, and nothing at all of a faulted one. -/
theorem State.requestCycle_cases {s t : State} {rnd : Byte} {r : HostReply} (h : s.requestCycle rnd = .next (t, r)) :
    (∃ record, s.fault = some record ∧ t = s ∧ r = .cycleDone false (some record)) ∨
      (s.fault = none ∧ step { s with rnd := rnd } = .next t ∧ r = t.cycleReply) := by
  by_cases hfault : s.fault = none
  · obtain ⟨u, hexec⟩ := exists_executes { s with rnd := rnd }
    have hstep := step_of_executes (s := { s with rnd := rnd }) hfault hexec
    cases (State.requestCycle_of_step hfault hstep).symm.trans h
    exact .inr ⟨hfault, hstep, rfl⟩
  · obtain ⟨record, hrecord⟩ := Option.ne_none_iff_exists'.mp hfault
    cases (State.requestCycle_of_fault hrecord rnd).symm.trans h
    exact .inl ⟨record, hrecord, rfl, rfl⟩

theorem hostStep_preserves_inv {a : HostAction} {s t : State} {r : HostReply} (hs : s.Inv)
    (h : hostStep a s = .next (t, r)) : t.Inv := by
  cases a with
  | reset =>
    cases h
    exact s.resetLive_inv
  | romLoad bytes => exact hs.romLoad h
  | setKeys keys =>
    cases h
    exact hs.congr rfl rfl rfl rfl
  | cycle rnd =>
    obtain ⟨_, _, rfl, _⟩ | ⟨_, hstep, _⟩ := State.requestCycle_cases h
    · exact hs
    · exact stepKeepsInvariant { s with rnd := rnd } t (hs.congr rfl rfl rfl rfl) hstep

/-- A run that the model does not refuse is its first action and the run of the others. -/
theorem hostRun_cons {a : HostAction} {as : List HostAction} {s t : State} (h : hostRun (a :: as) s = .next t) :
    ∃ u r, hostStep a s = .next (u, r) ∧ hostRun as u = .next t := by
  rw [hostRun] at h
  split at h
  · exact ⟨_, _, ‹_›, h⟩
  · cases h
  · cases h

/-- Settles O51, by induction on the actions: each one keeps the invariant (`hostStep_preserves_inv`). -/
theorem hostRunKeepsInvariant : Obligations.HostRunKeepsInvariant := by
  unfold Obligations.HostRunKeepsInvariant
  intro as s t hs h
  induction as generalizing s with
  | nil =>
    cases h
    exact hs
  | cons a as ih =>
    obtain ⟨u, _, hfirst, hrest⟩ := hostRun_cons h
    exact ih u (hostStep_preserves_inv hs hfirst) hrest

/-! ## The tick in the cycle that writes a timer (R188, R190) -/

/-- Settles O36: the ticks of a cycle act on the timers as its execute phase leaves them
(`State.endCycle_timersTicked`). -/
theorem timerWrittenIsTickedInItsCycle : Obligations.TimerWrittenIsTickedInItsCycle := by
  unfold Obligations.TimerWrittenIsTickedInItsCycle
  intro x s hf
  refine ⟨fun hdecode => ?delay, fun hdecode => ?sound⟩
  case delay =>
    have hexec : Executes s ((advanced s).setDt s.v[x]) := .inl ⟨_, hdecode, rfl⟩
    exact ⟨_, step_of_executes hf hexec, State.endCycle_timersTicked hf⟩
  case sound =>
    have hexec : Executes s ((advanced s).setSt s.v[x]) := .inl ⟨_, hdecode, rfl⟩
    obtain ⟨hdt, hst, hbeep⟩ := State.endCycle_timersTicked (t := (advanced s).setSt s.v[x]) hf
    exact ⟨_, step_of_executes hf hexec, hst, hdt, hbeep⟩

/-! ## Runs of cycles that count DT down (R167, R188) -/

/-- R26: `FX15` alone writes DT. -/
theorem dt_notMem_writes {i : Instr} (hi : ∀ x, i ≠ .ldDtVx x) (p : Config.Params) : .dt ∉ writes p i := by
  cases i
  case ldDtVx x => exact absurd rfl (hi x)
  case storeRegs x =>
    rw [writes_storeRegs]
    split <;> decide
  case loadRegs x =>
    rw [writes_loadRegs]
    split <;> decide
  all_goals simp [writes]

/-- The execute phase of a cycle that fetches no `FX15` keeps DT. -/
theorem dt_of_executes {s t : State} (h : Executes s t) (hno : NoDelayWrite s) : t.dt = s.dt := by
  obtain ⟨i, hdecode, hexec⟩ | ⟨_, rfl⟩ := h
  · have hi : ∀ x, i ≠ .ldDtVx x := fun x hx => hno x (hx ▸ hdecode)
    exact exec_sameOutside hexec .dt (dt_notMem_writes hi _)
  · rfl

/-- R69: a cycle that fetches no `FX15` and raises no fault lowers DT by one, never below 0. -/
theorem dt_of_step {s t : State} (h : step s = .next t) (hf : t.fault = none) (hno : NoDelayWrite s) :
    t.dt.toNat = s.dt.toNat - 1 := by
  obtain ⟨u, hexec, rfl⟩ := exists_executes_of_step h
  rw [State.endCycle_fault] at hf
  obtain ⟨hdt, _, _⟩ := State.endCycle_timersTicked hf
  rw [hdt, dt_of_executes hexec hno]

/-- A run that completes is its first cycle and the run of the others. -/
theorem runCycles_cons {i : Keys × Byte} {ins : List (Keys × Byte)} {s t : State}
    (h : runCycles (i :: ins) s = .next t) :
    ∃ u, cycleWith i.1 i.2 s = .next u ∧ runCycles ins u = .next t := by
  rw [runCycles] at h
  split at h
  · exact ⟨_, ‹_›, h⟩
  · cases h
  · cases h

/-- R21: a faulted engine performs no cycle, so a run that ends healthy began so. -/
theorem healthy_of_runCycles {ins : List (Keys × Byte)} {s t : State} (h : runCycles ins s = .next t)
    (hf : t.fault = none) : s.fault = none := by
  cases ins with
  | nil =>
    cases h
    exact hf
  | cons i ins =>
    obtain ⟨u, hfirst, _⟩ := runCycles_cons h
    obtain ⟨hhealthy, _⟩ := step_cases hfirst
    exact hhealthy

/-- Settles O37, by induction on the cycles: each lowers DT by one (`dt_of_step`), and none but the last could have
raised a fault (`healthy_of_runCycles`). -/
theorem delayTimerCountsCycles : Obligations.DelayTimerCountsCycles := by
  unfold Obligations.DelayTimerCountsCycles
  intro ins s t h hf hno
  induction ins generalizing s with
  | nil =>
    cases h
    rfl
  | cons i ins ih =>
    obtain ⟨u, hfirst, hrest⟩ := runCycles_cons h
    have hnoFirst : NoDelayWrite s := hno [] (i :: ins) s rfl (List.cons_ne_nil i ins) rfl
    have hdt : u.dt.toNat = s.dt.toNat - 1 :=
      dt_of_step (s := { s with keys := i.1, rnd := i.2 }) hfirst (healthy_of_runCycles hrest hf) hnoFirst
    have hnoRest : ∀ (pre post : List (Keys × Byte)) (w : State), ins = pre ++ post → post ≠ [] →
        runCycles pre u = .next w → NoDelayWrite w := by
      intro pre post w hsplit hpost hpre
      refine hno (i :: pre) post w (by rw [hsplit, List.cons_append]) hpost ?_
      rw [runCycles, hfirst]
      exact hpre
    rw [ih u hrest hnoRest, hdt, List.length_cons]
    omega

/-! ## The normal end of a run (R195) -/

/-- R195: a jump to itself undoes the advance. -/
theorem executes_self_of_ended {s : State} (h : s.ended) : Executes s s := by
  obtain ⟨_, hword⟩ := h
  refine .inl ⟨.jp s.pc, ?_, rfl⟩
  rw [wordAtPc_eq_fetchWord, hword]
  exact decode_encode rfl

theorem AgreeOutsideTimersAndKeys.pc_eq {s u : State} (h : AgreeOutsideTimersAndKeys s u) : u.pc = s.pc := by
  obtain ⟨_, hpc, _⟩ := h
  exact hpc

/-- The normal end is no matter of the timers, the beep or the keys. -/
theorem AgreeOutsideTimersAndKeys.ended {s u : State} (h : AgreeOutsideTimersAndKeys s u) (hs : s.ended) : u.ended := by
  obtain ⟨hf, hword⟩ := hs
  refine ⟨h.fault_eq.trans hf, ?_⟩
  rw [← wordAtPc_eq_fetchWord, h.wordAtPc_eq, wordAtPc_eq_fetchWord, hword, h.pc_eq]

/-- Settles O48: each cycle of an ended state only ticks (`executes_self_of_ended`) and ends in an ended state, so the run
is one of `runCycles_of_ticks`. -/
theorem endedRunStaysEnded : Obligations.EndedRunStaysEnded := by
  unfold Obligations.EndedRunStaysEnded
  intro ins s hs
  have hcycle : ∀ u, AgreeOutsideTimersAndKeys s u → ∀ i ∈ ins,
      ∃ t, cycleWith i.1 i.2 u = .next t ∧ AgreeOutsideTimersAndKeys s t ∧ TimersTicked u t := by
    intro u hu i _
    have hended : ({ u with keys := i.1, rnd := i.2 } : State).ended := hu.ended hs
    obtain ⟨t, ht, hagree, hticked⟩ := cycleWith_of_executes_self hended.1 (executes_self_of_ended hended)
    exact ⟨t, ht, hu.tick hagree, hticked⟩
  obtain ⟨t, hrun, hagree, hdt, hst, hbeeps⟩ := runCycles_of_ticks hcycle (.refl s)
  have hended : t.ended := hagree.ended hs
  obtain ⟨hv, hpc, hidx, hstack, hsp, hmem, hdisp, _, _, hparams⟩ := hagree
  exact ⟨t, hrun, hended, hv, hpc, hidx, hstack, hsp, hmem, hdisp, hparams, hdt, hst,
    hbeeps.trans (Nat.min_le_left _ _)⟩

end Sys2Proof.Machine
end
